-- ==== Sys2Proof/Word.lean ====
section
/-! DEFINITION. The widths of the machine's values (00_scope.md R6, R7, R10; 10_state.md R21). -/

namespace Sys2Proof

/-- A Word: "a 15-bit unsigned integer, the VM's only scalar type" (00_scope.md R6, R14). -/
abbrev Word := BitVec 15

/-- A 16-bit value: a memory cell, a raw instruction word, the pc or a stack entry
(00_scope.md R7, R10). -/
abbrev Word16 := BitVec 16

/-- One byte of the program image, and of the model's memory list (20_memory.md R55). -/
abbrev Byte := BitVec 8

/-- The number of a general register, 0 to 7 (10_state.md R25). -/
abbrev RegIx := Fin 8

end Sys2Proof
end

