-- ==== Sys2Proof/Syntax.lean ====
section
/-! DEFINITION. The instructions: one constructor per row of spec/opcode_table.json (30_encoding.md
R77, R78), over operands in the tagged form that R74 and R85 allow. -/

namespace Sys2Proof

/-- An operand word in its tagged form (30_encoding.md R74). Nothing is resolved or faulted here: an
`invalid` or wrongly placed operand raises its fault when the instruction executes (R85). -/
inductive Operand where
  /-- Raw 0 to 32767: the value itself. -/
  | literal (v : Word)
  /-- Raw 32768 to 32775: the register raw - 32768. -/
  | register (r : RegIx)
  /-- Raw 32776 to 65535: "a format violation when used"; carries the raw word. -/
  | invalid (raw : Word16)
deriving DecidableEq, Repr

/-- The 22 instructions, operands in the order a, b, c (30_encoding.md R77).
`input` is the instruction `in`, whose name is a word of Lean's own. -/
inductive Instr where
  | halt
  | set (a b : Operand)
  | push (a : Operand)
  | pop (a : Operand)
  | eq (a b c : Operand)
  | gt (a b c : Operand)
  | jmp (a : Operand)
  | jt (a b : Operand)
  | jf (a b : Operand)
  | add (a b c : Operand)
  | mult (a b c : Operand)
  | mod (a b c : Operand)
  | and (a b c : Operand)
  | or (a b c : Operand)
  | not (a b : Operand)
  | rmem (a b : Operand)
  | wmem (a b : Operand)
  | call (a : Operand)
  | ret
  | out (a : Operand)
  | input (a : Operand)
  | noop
deriving DecidableEq, Repr

/-- The role of an operand (30_encoding.md R76): D names a register to write, S is resolved. -/
inductive Role where
  | dst
  | src
deriving DecidableEq, Repr

/-- Each instruction's operands with their roles, in the order a, b, c: the table of
30_encoding.md R77. -/
def Instr.operands : Instr → List (Role × Operand)
  | .halt => []
  | .set a b => [(.dst, a), (.src, b)]
  | .push a => [(.src, a)]
  | .pop a => [(.dst, a)]
  | .eq a b c => [(.dst, a), (.src, b), (.src, c)]
  | .gt a b c => [(.dst, a), (.src, b), (.src, c)]
  | .jmp a => [(.src, a)]
  | .jt a b => [(.src, a), (.src, b)]
  | .jf a b => [(.src, a), (.src, b)]
  | .add a b c => [(.dst, a), (.src, b), (.src, c)]
  | .mult a b c => [(.dst, a), (.src, b), (.src, c)]
  | .mod a b c => [(.dst, a), (.src, b), (.src, c)]
  | .and a b c => [(.dst, a), (.src, b), (.src, c)]
  | .or a b c => [(.dst, a), (.src, b), (.src, c)]
  | .not a b => [(.dst, a), (.src, b)]
  | .rmem a b => [(.dst, a), (.src, b)]
  | .wmem a b => [(.src, a), (.src, b)]
  | .call a => [(.src, a)]
  | .ret => []
  | .out a => [(.src, a)]
  | .input a => [(.dst, a)]
  | .noop => []

end Sys2Proof
end

