-- ==== Sys2Proof/WellFormed.lean ====
section
/-! DEFINITION. Which terms of Instr stand for words of memory: the tag of every operand agrees with
its raw word (30_encoding.md R74). An operand that its role does not accept is still well formed: the
words exist, and executing them raises the spec's fault (R81, R82, R85). -/

namespace Sys2Proof

/-- `invalid` holds a raw word above 32775 only; the other two tags cannot go wrong
(30_encoding.md R74). -/
def Operand.wf : Operand → Bool
  | .literal _ => true
  | .register _ => true
  | .invalid w => decide (32775 < w.toNat)

/-- Every operand of the instruction is well formed. -/
def Instr.wf (i : Instr) : Bool := i.operands.all fun o => o.2.wf

end Sys2Proof
end

