-- ==== Sys2Proof/Decode.lean ====
section
/-! DEFINITION. Decoding, total on any words and any bytes, and the encoder (30_encoding.md). -/

namespace Sys2Proof

/-- Why a list of words is no instruction. -/
inductive DecodeError where
  /-- There is no opcode word to read. -/
  | noWord
  /-- The opcode word is 22 to 65535 (30_encoding.md R80). -/
  | unknownOpcode (w : Word16)
  /-- The words end before the opcode's operand words do (40_cycle.md R93). -/
  | missingOperand (w : Word16)
deriving DecidableEq, Repr

/-- The three forms of a raw operand word (30_encoding.md R74). -/
def decodeOperand (w : Word16) : Operand :=
  if w.toNat < 32768 then .literal (BitVec.ofNat 15 w.toNat)
  else if w.toNat < 32776 then .register (Fin.ofNat 8 (w.toNat - 32768))
  else .invalid w

/-- An opcode's format with its constructor: F0 to F3 by operand count (30_encoding.md R72). -/
inductive Form where
  | f0 (i : Instr)
  | f1 (mk : Operand → Instr)
  | f2 (mk : Operand → Operand → Instr)
  | f3 (mk : Operand → Operand → Operand → Instr)

/-- The operand count of a format (30_encoding.md R71, R72). -/
def Form.count : Form → Nat
  | .f0 _ => 0
  | .f1 _ => 1
  | .f2 _ => 2
  | .f3 _ => 3

/-- The opcode map (30_encoding.md R77, R78): the whole opcode word selects, and is never resolved
through the registers (R73). -/
def opcodeForm : Nat → Option Form
  | 0 => some (.f0 .halt)
  | 1 => some (.f2 .set)
  | 2 => some (.f1 .push)
  | 3 => some (.f1 .pop)
  | 4 => some (.f3 .eq)
  | 5 => some (.f3 .gt)
  | 6 => some (.f1 .jmp)
  | 7 => some (.f2 .jt)
  | 8 => some (.f2 .jf)
  | 9 => some (.f3 .add)
  | 10 => some (.f3 .mult)
  | 11 => some (.f3 .mod)
  | 12 => some (.f3 .and)
  | 13 => some (.f3 .or)
  | 14 => some (.f2 .not)
  | 15 => some (.f2 .rmem)
  | 16 => some (.f2 .wmem)
  | 17 => some (.f1 .call)
  | 18 => some (.f0 .ret)
  | 19 => some (.f1 .out)
  | 20 => some (.f1 .input)
  | 21 => some (.f0 .noop)
  | _ => none

/-- Takes a format's operand words off the list, in the order a, b, c (30_encoding.md R70). -/
def Form.take : Form → List Word16 → Option (Instr × List Word16)
  | .f0 i, ws => some (i, ws)
  | .f1 mk, a :: ws => some (mk (decodeOperand a), ws)
  | .f2 mk, a :: b :: ws => some (mk (decodeOperand a) (decodeOperand b), ws)
  | .f3 mk, a :: b :: c :: ws =>
    some (mk (decodeOperand a) (decodeOperand b) (decodeOperand c), ws)
  | _, _ => none

/-- Decodes the instruction at the head of a list of words: the opcode word, then the operand words
its opcode fixes (30_encoding.md R70, R84). The rest of the list comes back. -/
def decode : List Word16 → Except DecodeError (Instr × List Word16)
  | [] => .error .noWord
  | w :: ws =>
    match opcodeForm w.toNat with
    | none => .error (.unknownOpcode w)
    | some f =>
      match f.take ws with
      | none => .error (.missingOperand w)
      | some r => .ok r

/-- The raw word of an operand (30_encoding.md R74, 10_state.md R26). -/
def encodeOperand : Operand → Word16
  | .literal v => v.setWidth 16
  | .register r => BitVec.ofNat 16 (32768 + r.val)
  | .invalid w => w

/-- The words of an instruction: its opcode word of 30_encoding.md R77, then its operand words
(R72). -/
def encode : Instr → List Word16
  | .halt => [0]
  | .set a b => [1, encodeOperand a, encodeOperand b]
  | .push a => [2, encodeOperand a]
  | .pop a => [3, encodeOperand a]
  | .eq a b c => [4, encodeOperand a, encodeOperand b, encodeOperand c]
  | .gt a b c => [5, encodeOperand a, encodeOperand b, encodeOperand c]
  | .jmp a => [6, encodeOperand a]
  | .jt a b => [7, encodeOperand a, encodeOperand b]
  | .jf a b => [8, encodeOperand a, encodeOperand b]
  | .add a b c => [9, encodeOperand a, encodeOperand b, encodeOperand c]
  | .mult a b c => [10, encodeOperand a, encodeOperand b, encodeOperand c]
  | .mod a b c => [11, encodeOperand a, encodeOperand b, encodeOperand c]
  | .and a b c => [12, encodeOperand a, encodeOperand b, encodeOperand c]
  | .or a b c => [13, encodeOperand a, encodeOperand b, encodeOperand c]
  | .not a b => [14, encodeOperand a, encodeOperand b]
  | .rmem a b => [15, encodeOperand a, encodeOperand b]
  | .wmem a b => [16, encodeOperand a, encodeOperand b]
  | .call a => [17, encodeOperand a]
  | .ret => [18]
  | .out a => [19, encodeOperand a]
  | .input a => [20, encodeOperand a]
  | .noop => [21]

/-- Two bytes as one 16-bit word, low byte first (20_memory.md R55). -/
def wordOfBytes (lo hi : Byte) : Word16 := hi ++ lo

/-- The low byte of a 16-bit word. -/
def lowByte (w : Word16) : Byte := w.setWidth 8

/-- The high byte of a 16-bit word. -/
def highByte (w : Word16) : Byte := (w >>> 8).setWidth 8

/-- The words of a list of bytes, each low byte first (20_memory.md R55); one byte left over is no
word. -/
def wordsOfBytes : List Byte → List Word16
  | lo :: hi :: bs => wordOfBytes lo hi :: wordsOfBytes bs
  | [_] => []
  | [] => []

/-- The decoder on bytes as the image stores them. -/
def decodeBytes (bs : List Byte) : Except DecodeError (Instr × List Word16) :=
  decode (wordsOfBytes bs)

/-- The eight bytes of the longest instruction (four words, 30_encoding.md R72) whose first `nbits`
bits are the bits of `w`, bit 0 the least significant bit of the first word, and whose other bits
are 0. -/
def tableBytes (nbits w : Nat) : List Byte :=
  (List.range 8).map fun k => BitVec.ofNat 8 (w % 2 ^ nbits / 2 ^ (8 * k))

/-- The instruction the decoder reads from a word of the opcode table. -/
def decodeTableWord (nbits w : Nat) : Option Instr :=
  match decodeBytes (tableBytes nbits w) with
  | .ok (i, _) => some i
  | .error _ => none

end Sys2Proof
end

