-- ==== Sys2Proof/Config.lean ====
section
/-! DEFINITION. What an implementation fixes: the two open parameters of 00_scope.md R8 and R9. The
spec leaves no value free inside CORE, so there is no opaque constant here. The fixed sizes of R6 and
R7 stand in the definitions as the numbers they are: 32768 cells (MEM_SIZE), operand words up to 32775
(OPERAND_MAX), the sentinel pc 32768 (HALT_PC). -/

namespace Sys2Proof

/-- `UNKNOWN_OPCODE_POLICY` (00_scope.md R8): what the core does with an opcode word above 21. -/
inductive UnknownOpcodePolicy where
  /-- "reference behavior": report the word and advance the pc by one word. -/
  | skip
  /-- "strict mode": the word is fatal. -/
  | fault
deriving DecidableEq, Repr

/-- `STACK_CAPACITY` (00_scope.md R9): a natural number or `unbounded`. -/
inductive StackCapacity where
  | unbounded
  | bounded (entries : Nat)
deriving DecidableEq, Repr

/-- The configuration inputs, constant for a run (10_state.md R48). -/
structure Config where
  unknownOpcode : UnknownOpcodePolicy
  stackCapacity : StackCapacity
deriving DecidableEq, Repr

/-- The reference values `skip` and `unbounded` (00_scope.md R8, R9).
DESIGN CHOICE (log 6): a claim about this one configuration says nothing of another. -/
def Config.reference : Config := { unknownOpcode := .skip, stackCapacity := .unbounded }

end Sys2Proof
end

