-- ==== Sys2Proof/Machine/State.lean ====
section
/-! DEFINITION. The machine's state (10_state.md), the reasons a step of the model can stop, and the
state right after reset (10_state.md R46, 70_reset_and_hazards.md R146). -/

namespace Sys2Proof.Machine

/-- The ten fault causes (60_exceptions.md R130). A cause is raised by entering the run state
`faulted` (R134), which is a next state of the machine, not a `Fault` of the model. -/
inductive FaultCause where
  /-- A source or destination operand word is 32776 to 65535. -/
  | invalidOperand
  /-- A destination operand word is 0 to 32767. -/
  | destNotRegister
  /-- Some operand word would lie at index 32768 or above. -/
  | operandFetchOutOfRange
  /-- The opcode word is 22 to 65535 and the policy is `fault`. -/
  | unknownOpcode
  /-- `pop` on the empty stack. -/
  | stackUnderflow
  /-- `push` or `call` on a stack that holds its bounded capacity. -/
  | stackOverflow
  /-- `mod` by a divisor that resolves to 0. -/
  | divideByZero
  /-- `rmem` of a cell that holds 32768 or more. -/
  | memoryWordNotValue
  /-- `pop` of the entry 32768. -/
  | popValueNotWord
  /-- The host answers `in` with end of input. -/
  | inputExhausted
deriving DecidableEq, Repr

/-- The fault record f (10_state.md R41; 60_exceptions.md R131). -/
structure FaultRecord where
  cause : FaultCause
  /-- The index of the failing instruction's opcode word. -/
  fpc : Word16
  /-- `mem[fpc]` as fetched. -/
  opword : Word16
deriving DecidableEq, Repr

/-- The run state (10_state.md R39). -/
inductive RunState where
  | running
  /-- The core waits for the host's answer to the `in` at pc, which will write register `i`. -/
  | waitInput (i : RegIx)
  | halted
  | faulted (f : FaultRecord)
deriving DecidableEq, Repr

/-- The host's answer to one `await_in()` (10_state.md R49; 48_io.md R129). -/
inductive HostAnswer where
  | value (v : Word)
  | eof
deriving DecidableEq, Repr

/-- An event the host sees (10_state.md R49, R50; 60_exceptions.md R136). -/
inductive Event where
  | emitOut (v : Word)
  | awaitIn
  | answered (a : HostAnswer)
  | reportUnknown (pc w : Word16)
deriving DecidableEq, Repr

/-- The state. `mem`, `regs` (the spec's x), `pc`, `stack` (the spec's S, head = top) and `run` are
the architectural state (10_state.md R21); the other fields are the block's inputs and outputs
(R48 to R50), held here because a step reads or extends them. -/
structure State where
  /-- Memory: the bytes that are not 0, by rising byte address; cell i is bytes 2i (low) and 2i + 1
  (high). DESIGN CHOICE (log 1). -/
  mem : List Host.Cell
  regs : Vector Word 8
  pc : Word16
  stack : List Word16
  run : RunState
  /-- The configuration inputs (R48), which no step changes. -/
  cfg : Config
  /-- The input `reset` (R48): true while it is asserted. -/
  resetLine : Bool
  /-- The host's answers to `await_in()` still to come, oldest first. DESIGN CHOICE (log 7). -/
  answers : List HostAnswer
  /-- The events so far, oldest first (20_memory.md R65). DESIGN CHOICE (log 10). -/
  events : List Event
deriving DecidableEq, Repr

/-- The reasons the model itself stops a step. The spec's own faults are not here: they are values of
`State.run`. -/
inductive Fault where
  /-- Raised by `step` alone, in Running with a pc above 32768 or in WaitInput with a pc that is no
  memory index: "No rule ever sets `pc` above 32768" (10_state.md R30) and a waiting pc is at an `in`
  (R39), so no run reaches it and the spec gives no step there. Safe (log 5). -/
  | pcOutsideRange
deriving DecidableEq, Repr

/-- The reasons the model gives an instruction no meaning. -/
inductive Refusal where
  /-- Raised by an arm of `exec` for an instruction that has no meaning yet; no arm does. Safe. -/
  | notModelled (mnemonic : String)
deriving DecidableEq, Repr

/-- What a step or a meaning answers. -/
abbrev Result := Host.Outcome State Fault Refusal

/-- The state right after reset is released with the empty image loaded (10_state.md R46;
70_reset_and_hazards.md R146, R151). The registers' 0 and the memory's 0 are the spec's own
decisions D3 and D2 (log 2, log 3); the configuration is the reference one (log 6). -/
def State.reset : State where
  mem := []
  regs := Vector.replicate 8 0
  pc := 0
  stack := []
  run := .running
  cfg := Config.reference
  resetLine := false
  answers := []
  events := []

end Sys2Proof.Machine
end

