-- ==== Sys2Proof/Machine/Ops.lean ====
section
/-! DEFINITION. The named operations over memory, registers, pc, stack, run state and events, and the
one way a fault is taken (60_exceptions.md R134). There is no return from a fault (R135). -/

namespace Sys2Proof.Machine

/-! Memory: the list of the bytes that are not 0, and the cells made of them. -/

/-- What a byte that is not listed reads as: a cell the image does not cover holds 0
(70_reset_and_hazards.md R149, decision D2; log 2). -/
def emptyByte : Byte := 0

/-- The byte at a byte address. -/
def readByte : List Host.Cell → Nat → Byte
  | [], _ => emptyByte
  | (k, v) :: rest, a => if k = a then v else readByte rest a

/-- Puts an entry in its place by rising address. -/
def insertByte (a : Nat) (v : Byte) : List Host.Cell → List Host.Cell
  | [] => [(a, v)]
  | (k, w) :: rest => if a < k then (a, v) :: (k, w) :: rest else (k, w) :: insertByte a v rest

/-- Writes one byte, keeping the canonical form: the old entry goes, and a new one comes only for a
value that an unlisted address does not read as. -/
def writeByte (m : List Host.Cell) (a : Nat) (v : Byte) : List Host.Cell :=
  let others := m.filter fun c => c.1 != a
  if v = emptyByte then others else insertByte a v others

/-- The canonical form: byte addresses strictly rising, all of them below the 2 * 32768 bytes of the
address space, no entry equal to what an unlisted address reads as. -/
def Memory.wf : List Host.Cell → Bool
  | [] => true
  | (k, v) :: rest =>
    rest.all (fun c => decide (k < c.1)) && decide (k < 65536) && v != emptyByte
      && Memory.wf rest

/-- `MemRead(i, 1)`: the 16-bit cell at index i (00_scope.md R11; 20_memory.md R57). -/
def readCell (m : List Host.Cell) (i : Nat) : Word16 :=
  wordOfBytes (readByte m (2 * i)) (readByte m (2 * i + 1))

/-- `MemWrite(i, 1, v)`: writes the 16-bit cell at index i and no other (00_scope.md R11;
20_memory.md R59). -/
def writeCell (m : List Host.Cell) (i : Nat) (v : Word16) : List Host.Cell :=
  writeByte (writeByte m (2 * i) (lowByte v)) (2 * i + 1) (highByte v)

/-- Writes the cells from index i on with the words of a list, in order. -/
def writeCells (m : List Host.Cell) (i : Nat) : List Word16 → List Host.Cell
  | [] => m
  | w :: ws => writeCells (writeCell m i w) (i + 1) ws

/-! The state's operations: each changes one field. -/

/-- `x[i]` (10_state.md R25). -/
def State.readReg (s : State) (i : RegIx) : Word := s.regs[i]

/-- `x[i] <- v` (10_state.md R25, R27). -/
def State.writeReg (s : State) (i : RegIx) (v : Word) : State :=
  { s with regs := s.regs.set i v }

/-- `mem[i]`. -/
def State.readMem (s : State) (i : Nat) : Word16 := readCell s.mem i

/-- `mem[i] <- v`. -/
def State.writeMem (s : State) (i : Nat) (v : Word16) : State :=
  { s with mem := writeCell s.mem i v }

/-- `pc <- target`. -/
def State.setPc (s : State) (target : Word16) : State := { s with pc := target }

/-- `pc <- pc + len`: the default advance past an instruction of `len` words (10_state.md R32;
40_cycle.md R97). -/
def State.advance (s : State) (len : Nat) : State :=
  { s with pc := s.pc + BitVec.ofNat 16 len }

/-- `push(v)` (10_state.md R36). -/
def State.push (s : State) (v : Word16) : State := { s with stack := v :: s.stack }

/-- Takes the stack as it is after `pop()`. -/
def State.setStack (s : State) (rest : List Word16) : State := { s with stack := rest }

/-- `run <- r`. -/
def State.setRun (s : State) (r : RunState) : State := { s with run := r }

/-- Makes one event, after all earlier ones (20_memory.md R65). -/
def State.emit (s : State) (e : Event) : State := { s with events := s.events ++ [e] }

/-- Takes the host's answers as they are after one is used. -/
def State.setAnswers (s : State) (rest : List HostAnswer) : State := { s with answers := rest }

/-- "length(S) = STACK_CAPACITY", false when the capacity is unbounded (42_data_stack.md R109). -/
def State.stackFull (s : State) : Bool :=
  match s.cfg.stackCapacity with
  | .unbounded => false
  | .bounded n => s.stack.length == n

/-- The numeric code of a fault cause (60_exceptions.md R130). -/
def FaultCause.code : FaultCause → Nat
  | .invalidOperand => 1
  | .destNotRegister => 2
  | .operandFetchOutOfRange => 3
  | .unknownOpcode => 4
  | .stackUnderflow => 5
  | .stackOverflow => 6
  | .divideByZero => 7
  | .memoryWordNotValue => 8
  | .popValueNotWord => 9
  | .inputExhausted => 10

/-- The state `raise Fault(cause)` leaves: `run` holds the record {cause, pc, mem[pc]}, "nothing else"
changes (60_exceptions.md R131, R134). -/
def State.faultedBy (s : State) (cause : FaultCause) : State :=
  s.setRun (.faulted { cause := cause, fpc := s.pc, opword := s.readMem s.pc.toNat })

/-- `raise Fault(cause)` (60_exceptions.md R134), taken before any write of the step. -/
def raiseFault (cause : FaultCause) (s : State) : Result := .next (s.faultedBy cause)

/-- The state a halting instruction leaves: `run <- Halted; pc <- 32768` (10_state.md R34). -/
def State.haltedAtEnd (s : State) : State := (s.setRun .halted).setPc 32768

end Sys2Proof.Machine
end

