-- ==== Sys2Proof/Machine/Operands.lean ====
section
/-! DEFINITION. Operand checks and resolution (40_cycle.md R95, R99, R100). A meaning nests these in
the order a, b, c and writes nothing before the innermost one, so every operand is checked before
anything is written (R95) and every read comes before every write (R102). -/

namespace Sys2Proof.Machine

/-- The fault a check of an operand word against its role raises, if any: check_dst and check_src of
40_cycle.md R95. -/
def operandFault : Role → Operand → Option FaultCause
  | .dst, .literal _ => some .destNotRegister
  | .dst, .register _ => none
  | .dst, .invalid _ => some .invalidOperand
  | .src, .literal _ => none
  | .src, .register _ => none
  | .src, .invalid _ => some .invalidOperand

/-- `resolve(w)` (40_cycle.md R99); a checked source is never `invalid`, whose value here no meaning
uses. -/
def resolve (o : Operand) (s : State) : Word :=
  match o with
  | .literal v => v
  | .register r => s.readReg r
  | .invalid _ => 0

/-- check_dst, then `dst(w)`, which does not read the register (40_cycle.md R95, R100). -/
def withDst (o : Operand) (s : State) (k : RegIx → Result) : Result :=
  match o with
  | .register r => k r
  | .literal _ => raiseFault .destNotRegister s
  | .invalid _ => raiseFault .invalidOperand s

/-- check_src, then `resolve(w)` (40_cycle.md R95, R99). -/
def withSrc (o : Operand) (s : State) (k : Word → Result) : Result :=
  match operandFault .src o with
  | some cause => raiseFault cause s
  | none => k (resolve o s)

/-- The shape of an instruction with one source and a register result: a = destination, b = source,
3 words. -/
def unaryOp (f : Word → Word) (a b : Operand) (s : State) : Result :=
  withDst a s fun d => withSrc b s fun vb => .next ((s.writeReg d (f vb)).advance 3)

/-- The shape of an instruction with two sources and a register result: a = destination, b and c =
sources, 4 words. -/
def binaryOp (f : Word → Word → Word) (a b c : Operand) (s : State) : Result :=
  withDst a s fun d => withSrc b s fun vb => withSrc c s fun vc =>
    .next ((s.writeReg d (f vb vc)).advance 4)

end Sys2Proof.Machine
end

