-- ==== Sys2Proof/Machine/Alu.lean ====
section
/-! DEFINITION. add, mult, mod, and, or, not (45_alu.md). Arithmetic is exact on naturals, then reduced
modulo 32768 by the 15 bits of a Word (R116). -/

namespace Sys2Proof.Machine

/-- (b + c) mod 32768 (45_alu.md R116). -/
def addWord (b c : Word) : Word := BitVec.ofNat 15 (b.toNat + c.toNat)

/-- (b * c) mod 32768, "of the exact product" (45_alu.md R116, R118). -/
def multWord (b c : Word) : Word := BitVec.ofNat 15 (b.toNat * c.toNat)

/-- b mod c for c > 0 (45_alu.md R116); `execMod` never asks it for c = 0. -/
def modWord (b c : Word) : Word := BitVec.ofNat 15 (b.toNat % c.toNat)

/-- Bitwise and of bits 0 to 14 (45_alu.md R116). -/
def andWord (b c : Word) : Word := b &&& c

/-- Bitwise or of bits 0 to 14 (45_alu.md R116). -/
def orWord (b c : Word) : Word := b ||| c

/-- Every bit 0 to 14 inverted (45_alu.md R116). -/
def notWord (b : Word) : Word := ~~~b

/-- `add a b c` (45_alu.md R117). -/
def execAdd (a b c : Operand) (s : State) : Result := binaryOp addWord a b c s

/-- `mult a b c` (45_alu.md R118). -/
def execMult (a b c : Operand) (s : State) : Result := binaryOp multWord a b c s

/-- `mod a b c` (45_alu.md R119). -/
def execMod (a b c : Operand) (s : State) : Result :=
  withDst a s fun d => withSrc b s fun vb => withSrc c s fun vc =>
    if vc = 0 then raiseFault .divideByZero s
    else .next ((s.writeReg d (modWord vb vc)).advance 4)

/-- `and a b c` (45_alu.md R120). -/
def execAnd (a b c : Operand) (s : State) : Result := binaryOp andWord a b c s

/-- `or a b c` (45_alu.md R121). -/
def execOr (a b c : Operand) (s : State) : Result := binaryOp orWord a b c s

/-- `not a b` (45_alu.md R122). -/
def execNot (a b : Operand) (s : State) : Result := unaryOp notWord a b s

end Sys2Proof.Machine
end

