-- ==== Sys2Proof/Machine/Flags.lean ====
section
/-! DEFINITION. There are no status flags (10_state.md R42): what other machines keep in flags is here
a Word, the 0 or 1 of a comparison, and the test of a Word against 0. -/

namespace Sys2Proof.Machine

/-- A comparison's result: exactly 0 or 1 (10_state.md R42). -/
def truthWord (b : Bool) : Word := if b then 1 else 0

/-- The result of `eq`, on resolved values (43_compare.md R111). -/
def eqWord (b c : Word) : Word := truthWord (b == c)

/-- The result of `gt`: strict and unsigned (43_compare.md R112). -/
def gtWord (b c : Word) : Word := truthWord (decide (c.toNat < b.toNat))

/-- The condition of `jt` and `jf`: any value but 0 is true (44_branch.md R114). -/
def wordTrue (v : Word) : Bool := v != 0

end Sys2Proof.Machine
end

