-- ==== Sys2Proof/Machine/Branch.lean ====
section
/-! DEFINITION. jmp, jt and jf (44_branch.md). The target is an absolute index, and is checked even
when the jump is not taken. -/

namespace Sys2Proof.Machine

/-- `jmp a` (44_branch.md R113). -/
def execJmp (a : Operand) (s : State) : Result :=
  withSrc a s fun target => .next (s.setPc (target.setWidth 16))

/-- `jt a b` (44_branch.md R114). -/
def execJt (a b : Operand) (s : State) : Result :=
  withSrc a s fun cond => withSrc b s fun target =>
    .next (if wordTrue cond then s.setPc (target.setWidth 16) else s.advance 3)

/-- `jf a b` (44_branch.md R115). -/
def execJf (a b : Operand) (s : State) : Result :=
  withSrc a s fun cond => withSrc b s fun target =>
    .next (if wordTrue cond then s.advance 3 else s.setPc (target.setWidth 16))

end Sys2Proof.Machine
end

