-- ==== Sys2Proof/Machine/CallRet.lean ====
section
/-! DEFINITION. call and ret (47_call_ret.md). -/

namespace Sys2Proof.Machine

/-- `call a` (47_call_ret.md R125). -/
def execCall (a : Operand) (s : State) : Result :=
  withSrc a s fun target =>
    if s.stackFull then raiseFault .stackOverflow s
    else .next ((s.push (s.pc + 2)).setPc (target.setWidth 16))

/-- `ret` (47_call_ret.md R126): on the empty stack a normal halt. -/
def execRet (s : State) : Result :=
  match s.stack with
  | [] => .next s.haltedAtEnd
  | target :: rest => .next ((s.setStack rest).setPc target)

end Sys2Proof.Machine
end

