-- ==== Sys2Proof/Machine/Compare.lean ====
section
/-! DEFINITION. eq and gt (43_compare.md). -/

namespace Sys2Proof.Machine

/-- `eq a b c` (43_compare.md R111). -/
def execEq (a b c : Operand) (s : State) : Result := binaryOp eqWord a b c s

/-- `gt a b c` (43_compare.md R112). -/
def execGt (a b c : Operand) (s : State) : Result := binaryOp gtWord a b c s

end Sys2Proof.Machine
end

