-- ==== Sys2Proof/Machine/DataStack.lean ====
section
/-! DEFINITION. set, push and pop (42_data_stack.md). -/

namespace Sys2Proof.Machine

/-- `set a b` (42_data_stack.md R108). -/
def execSet (a b : Operand) (s : State) : Result := unaryOp id a b s

/-- `push a` (42_data_stack.md R109). -/
def execPush (a : Operand) (s : State) : Result :=
  withSrc a s fun v =>
    if s.stackFull then raiseFault .stackOverflow s
    else .next ((s.push (v.setWidth 16)).advance 2)

/-- `pop a` (42_data_stack.md R110). -/
def execPop (a : Operand) (s : State) : Result :=
  withDst a s fun d =>
    match s.stack with
    | [] => raiseFault .stackUnderflow s
    | v :: rest =>
      if 32767 < v.toNat then raiseFault .popValueNotWord s
      else .next (((s.setStack rest).writeReg d (v.setWidth 15)).advance 2)

end Sys2Proof.Machine
end

