-- ==== Sys2Proof/Machine/HaltNoop.lean ====
section
/-! DEFINITION. halt and noop (41_halt_noop.md). -/

namespace Sys2Proof.Machine

/-- `halt` (41_halt_noop.md R106). -/
def execHalt (s : State) : Result := .next s.haltedAtEnd

/-- `noop` (41_halt_noop.md R107). -/
def execNoop (s : State) : Result := .next (s.advance 1)

end Sys2Proof.Machine
end

