-- ==== Sys2Proof/Machine/Io.lean ====
section
/-! DEFINITION. out and in (48_io.md). -/

namespace Sys2Proof.Machine

/-- `out a` (48_io.md R127): one event, of the whole Word. -/
def execOut (a : Operand) (s : State) : Result :=
  withSrc a s fun v => .next ((s.emit (.emitOut v)).advance 2)

/-- `in a`, the issuing step (48_io.md R128): the pc stays. -/
def execInput (a : Operand) (s : State) : Result :=
  withDst a s fun d => .next ((s.setRun (.waitInput d)).emit .awaitIn)

/-- `in a`, the completing step in `WaitInput(i)` (48_io.md R129). With no answer to come the core
stays as it is (log 8). -/
def completeInput (i : RegIx) (s : State) : Result :=
  match s.answers with
  | [] => .next s
  | .value v :: rest =>
    .next (((((s.setAnswers rest).emit (.answered (.value v))).writeReg i v).advance 2).setRun
      .running)
  | .eof :: rest =>
    raiseFault .inputExhausted ((s.setAnswers rest).emit (.answered .eof))

end Sys2Proof.Machine
end

