-- ==== Sys2Proof/Machine/MemoryOps.lean ====
section
/-! DEFINITION. rmem and wmem (46_memory_ops.md). -/

namespace Sys2Proof.Machine

/-- The index of the cell that `wmem` with address operand a writes (46_memory_ops.md R124). -/
def wmemAddress (a : Operand) (s : State) : Nat := (resolve a s).toNat

/-- `rmem a b` (46_memory_ops.md R123). -/
def execRmem (a b : Operand) (s : State) : Result :=
  withDst a s fun d => withSrc b s fun addr =>
    let v := s.readMem addr.toNat
    if 32767 < v.toNat then raiseFault .memoryWordNotValue s
    else .next ((s.writeReg d (v.setWidth 15)).advance 3)

/-- `wmem a b` (46_memory_ops.md R124). -/
def execWmem (a b : Operand) (s : State) : Result :=
  withSrc a s fun _ => withSrc b s fun v =>
    .next ((s.writeMem (wmemAddress a s) (v.setWidth 16)).advance 3)

end Sys2Proof.Machine
end

