-- ==== Sys2Proof/Machine/Cycle.lean ====
section
/-! DEFINITION. The fetch-decode-execute cycle (40_cycle.md R90 to R98). -/

namespace Sys2Proof.Machine

/-- The words the decoder may read: the cells from the pc on, at most four (30_encoding.md R70), none
outside memory (20_memory.md R53). -/
def fetchWords (s : State) : List Word16 :=
  ((List.range 4).filter fun k => decide (s.pc.toNat + k < 32768)).map fun k =>
    s.readMem (s.pc.toNat + k)

/-- An unknown opcode word under each policy (40_cycle.md R92). -/
def unknownOpcode (w : Word16) (s : State) : Result :=
  match s.cfg.unknownOpcode with
  | .skip => .next ((s.emit (.reportUnknown s.pc w)).advance 1)
  | .fault => raiseFault .unknownOpcode s

/-- The step in `Running` (40_cycle.md R91 to R98). With the pc inside memory there is always an
opcode word, so the decoder's `noWord` is the case of a pc above 32768 (log 5). -/
def stepRunning (s : State) : Result :=
  if s.pc = 32768 then .next (s.setRun .halted)
  else
    match decode (fetchWords s) with
    | .ok (i, _) => exec i s
    | .error (.unknownOpcode w) => unknownOpcode w s
    | .error (.missingOperand _) => raiseFault .operandFetchOutOfRange s
    | .error .noWord => .fault .pcOutsideRange

/-- The step in `WaitInput(i)` (48_io.md R129). The `in` at pc lies in memory (log 5). -/
def stepWaiting (i : RegIx) (s : State) : Result :=
  if s.pc.toNat < 32768 then completeInput i s else .fault .pcOutsideRange

/-- One step (40_cycle.md R90): none while reset is held (70_reset_and_hazards.md R145), and in
`Halted` and `Faulted` nothing changes (10_state.md R40; 60_exceptions.md R135; log 9). -/
def cycle (s : State) : Result :=
  if s.resetLine then .next s
  else
    match s.run with
    | .running => stepRunning s
    | .waitInput i => stepWaiting i s
    | .halted => .next s
    | .faulted _ => .next s

/-- The four words of the longest instruction that a word of the opcode table stands for. -/
def tableWords (nbits w : Nat) : List Word16 := wordsOfBytes (tableBytes nbits w)

/-- Where a placed instruction of up to four words lies: at the pc if they all fit there, else at
index 0. -/
def placeIndex (s : State) : Word16 := if s.pc.toNat + 4 ≤ 32768 then s.pc else 0

/-- The state in which the next step fetches the given word of the opcode table, as if it had been
loaded where the core fetches (log 12). -/
def placeFetchWord (s : State) (nbits w : Nat) : State :=
  { s with
    mem := writeCells s.mem (placeIndex s).toNat (tableWords nbits w)
    pc := placeIndex s
    run := .running
    resetLine := false }

end Sys2Proof.Machine
end

