-- ==== Sys2Proof/Machine/Step.lean ====
section
/-! DEFINITION. The step, and the host's way to place one instruction before it. -/

namespace Sys2Proof.Machine

/-- One step of the core (40_cycle.md R90). -/
def step (s : State) : Host.Outcome State Fault Refusal := cycle s

/-- `s` with one instruction stored where `step` fetches next (log 12). -/
def State.withFetchWord (s : State) (nbits w : Nat) : State := placeFetchWord s nbits w

end Sys2Proof.Machine
end

