-- ==== Sys2Proof/Machine/HostPort.lean ====
section
/-! DEFINITION. What the host does to the core from outside: reset, the load port, the program image,
and the answers to `await_in()` (70_reset_and_hazards.md R145 to R151; 10_state.md R47 to R49). No
instruction reaches these. -/

namespace Sys2Proof.Machine

/-- The host asserts `reset`, in any run state (70_reset_and_hazards.md R145). -/
def State.assertReset (s : State) : State := { s with resetLine := true }

/-- The host writes one cell through the load port, which works only while reset is held
(10_state.md R47); at other times nothing is written. -/
def State.loadPort (s : State) (i : Word) (v : Word16) : State :=
  if s.resetLine then { s with mem := writeCell s.mem i.toNat v } else s

/-- The host releases `reset`: the reset state, with memory as the host left it
(70_reset_and_hazards.md R146, R147). The configuration inputs and the host's answers are the host's
and stay as it holds them; the events of the abandoned run are dropped (log 11). -/
def State.releaseReset (s : State) : State :=
  { State.reset with mem := s.mem, cfg := s.cfg, answers := s.answers }

/-- The host sets the configuration inputs, which "must be fixed before reset is released"
(70_reset_and_hazards.md R151): at other times nothing changes. -/
def State.configure (s : State) (cfg : Config) : State :=
  if s.resetLine then { s with cfg := cfg } else s

/-- The host gives one more answer to `await_in()` (10_state.md R49; log 7). -/
def State.giveAnswer (s : State) (a : HostAnswer) : State :=
  { s with answers := s.answers ++ [a] }

/-- Why a program image is refused (70_reset_and_hazards.md R150). -/
inductive LoadRefusal where
  | oddByteCount
  | tooManyWords
  | wordOutOfRange
deriving DecidableEq, Repr

/-- The memory a program image leaves, or why it is refused (70_reset_and_hazards.md R148, R149,
R150). -/
def loadImage (image : List Byte) : Except LoadRefusal (List Host.Cell) :=
  if image.length % 2 = 1 then .error .oddByteCount
  else if 32768 < (wordsOfBytes image).length then .error .tooManyWords
  else if (wordsOfBytes image).any (fun w => decide (32775 < w.toNat)) then
    .error .wordOutOfRange
  else .ok (writeCells [] 0 (wordsOfBytes image))

/-- The state in which a run of an image starts (70_reset_and_hazards.md R146, R148, R151). -/
def launch (image : List Byte) (cfg : Config) (answers : List HostAnswer) :
    Except LoadRefusal State :=
  match loadImage image with
  | .error r => .error r
  | .ok m => .ok { State.reset with mem := m, cfg := cfg, answers := answers }

end Sys2Proof.Machine
end

