-- ==== Sys2Proof/Safety.lean ====
section
/-! DEFINITION. What claims speak of: which operands a role accepts, which run states are faults, the
invariants of the machine, and what it is to leave a part of a state as it was. -/

namespace Sys2Proof

/-- An operand a source accepts: raw word 0 to 32775 (40_cycle.md R95). -/
def Operand.isSource : Operand → Bool
  | .literal _ => true
  | .register _ => true
  | .invalid _ => false

namespace Machine

/-- check_src and check_dst on a raw operand word, as 40_cycle.md R95 writes them. -/
def checkWord (role : Role) (w : Word16) : Option FaultCause :=
  match role with
  | .src => if 32775 < w.toNat then some .invalidOperand else none
  | .dst =>
    if w.toNat ≤ 32767 then some .destNotRegister
    else if 32775 < w.toNat then some .invalidOperand
    else none

/-- The fault of the first operand word, in the order a, b, c, that fails its check (40_cycle.md
R95). -/
def firstOperandFault (i : Instr) : Option FaultCause :=
  i.operands.findSome? fun o => checkWord o.1 (encodeOperand o.2)

/-- The register an instruction's destination operand names, if it has one (10_state.md R27;
30_encoding.md R77). -/
def destination (i : Instr) : Option RegIx :=
  match i.operands with
  | (.dst, .register r) :: _ => some r
  | _ => none

/-- The run has not ended in a fault (60_exceptions.md R130). -/
def State.safe (s : State) : Bool :=
  match s.run with
  | .faulted _ => false
  | _ => true

/-- What the run state says of the other fields. Halted: "In `Halted`, `pc = 32768` always". Faulted:
"In `Faulted`, `pc` is the fault record's `fpc`" (60_exceptions.md R136), and the record's opword is
the cell there (R131). Waiting: the pc is at the `in` that names the register (48_io.md R128). -/
def RunState.agrees (r : RunState) (s : State) : Prop :=
  match r with
  | .running => True
  | .waitInput i =>
    s.pc.toNat + 1 < 32768 ∧ s.readMem s.pc.toNat = 20 ∧
      (s.readMem (s.pc.toNat + 1)).toNat = 32768 + i.val
  | .halted => s.pc = 32768
  | .faulted f => f.fpc.toNat < 32768 ∧ s.pc = f.fpc ∧ f.opword = s.readMem f.fpc.toNat

/-- The stack holds at most `STACK_CAPACITY` entries (10_state.md R38). -/
def State.stackFits (s : State) : Prop :=
  match s.cfg.stackCapacity with
  | .unbounded => True
  | .bounded n => s.stack.length ≤ n

/-- The invariant: memory is canonical, the pc is at most 32768 (10_state.md R30), every stack entry
is at most 32768 (R37), the stack fits (R38), and the run state agrees with the other fields. -/
structure State.Inv (s : State) : Prop where
  mem_wf : Memory.wf s.mem = true
  pc_le : s.pc.toNat ≤ 32768
  stack_le : ∀ v ∈ s.stack, v.toNat ≤ 32768
  stack_fits : s.stackFits
  run_agrees : s.run.agrees s

/-- "every cell holds a value in [0, 32775]" (10_state.md R23). -/
def State.CellsLoaded (s : State) : Prop := ∀ i < 32768, (s.readMem i).toNat ≤ 32775

/-- The core is about to run an instruction: reset is released and the run state is `Running`. -/
def State.ready (s : State) : Prop := s.resetLine = false ∧ s.run = .running

/-- The words stand in memory from the pc on, inside memory (30_encoding.md R70). -/
def State.holdsAtPc (s : State) (ws : List Word16) : Prop :=
  s.pc.toNat + ws.length ≤ 32768 ∧
    ∀ k (h : k < ws.length), s.readMem (s.pc.toNat + k) = ws[k]

/-- Every byte of memory reads the same in both states. -/
def SameMemory (s t : State) : Prop := ∀ a, readByte t.mem a = readByte s.mem a

/-- Every register holds the same Word in both states. -/
def SameRegs (s t : State) : Prop := ∀ q, t.readReg q = s.readReg q

/-- Every register but `r` holds the same Word in both states. -/
def SameRegsBut (r : RegIx) (s t : State) : Prop := ∀ q, q ≠ r → t.readReg q = s.readReg q

/-- The inputs the host holds (configuration, reset, answers to come) are the same in both states. -/
def SameInputs (s t : State) : Prop :=
  t.cfg = s.cfg ∧ t.resetLine = s.resetLine ∧ t.answers = s.answers

/-- From s to t only register `d` may change, and the pc advances by `len` words. -/
def OnlyRegister (d : RegIx) (len : Nat) (s t : State) : Prop :=
  t.pc = s.pc + BitVec.ofNat 16 len ∧ SameRegsBut d s t ∧ SameMemory s t ∧ t.stack = s.stack ∧
    t.run = s.run ∧ SameInputs s t ∧ t.events = s.events

/-- From s to t only the pc may change. -/
def OnlyPc (s t : State) : Prop :=
  SameRegs s t ∧ SameMemory s t ∧ t.stack = s.stack ∧ t.run = s.run ∧ SameInputs s t ∧
    t.events = s.events

end Machine

end Sys2Proof
end

