-- ==== Sys2Proof/Certificates/Slice0/Obligations.lean ====
section
/-! DEFINITION. The statements for the provers. Each docstring names the sentence of spec/ it
formalises; where that sentence is one of the spec's own decisions (92_eei_decisions.md) or rests on a
choice of the model, it says so. The frames (SameMemory, SameInputs, OnlyRegister, OnlyPc) run over all
the fields of the model's State: memory as bytes is log 1, the configuration log 6, the answers log 7,
the events log 10, the reset line log 11; that an instruction leaves all of them alone does not depend
on how they are held. -/

open Sys2Proof Sys2Proof.Machine

/-! Encoding. -/

/-- For every well-formed instruction, decoding its words gives it back and leaves the words after it
(30_encoding.md §1, §2, §3). That operands are tagged at decode time is the model's choice, which the
spec allows (log 23). -/
def Obligations.DecodeOfEncode : Prop :=
  ∀ (i : Instr) (rest : List Word16), i.wf = true → decode (encode i ++ rest) = .ok (i, rest)

/-- Whatever words decode, they are the words of the decoded instruction followed by the rest, and the
instruction is well formed: no bit of a word is dropped (30_encoding.md §1, §2). That operands are
tagged at decode time is the model's choice, which the spec allows (log 23). -/
def Obligations.EncodeOfDecode : Prop :=
  ∀ (ws rest : List Word16) (i : Instr), decode ws = .ok (i, rest) →
    i.wf = true ∧ ws = encode i ++ rest

/-- 30_encoding.md R79: "Every 16-bit opcode word is either one of the 22 opcodes or unknown." -/
def Obligations.OpcodeWordIsKnownOrUnknown : Prop :=
  ∀ (w : Word16) (ws : List Word16),
    (21 < w.toNat → decode (w :: ws) = .error (.unknownOpcode w)) ∧
      (w.toNat ≤ 21 → (∃ i rest, decode (w :: ws) = .ok (i, rest)) ∨
        decode (w :: ws) = .error (.missingOperand w)) ∧
      (w.toNat ≤ 21 → 3 ≤ ws.length → ∃ i rest, decode (w :: ws) = .ok (i, rest))

/-- 30_encoding.md R71: the operand count, and so the length, "determined solely by opcode, not by
operand contents". -/
def Obligations.LengthIsFixedByOpcode : Prop :=
  ∀ a b c : Operand,
    (∀ i ∈ [Instr.halt, .ret, .noop], (encode i).length = 1 + 0) ∧
      (∀ i ∈ [Instr.push a, .pop a, .jmp a, .call a, .out a, .input a],
        (encode i).length = 1 + 1) ∧
      (∀ i ∈ [Instr.set a b, .jt a b, .jf a b, .not a b, .rmem a b, .wmem a b],
        (encode i).length = 1 + 2) ∧
      (∀ i ∈ [Instr.eq a b c, .gt a b c, .add a b c, .mult a b c, .mod a b c, .and a b c,
        .or a b c], (encode i).length = 1 + 3)

/-- 30_encoding.md R74: the three forms of a raw operand word. -/
def Obligations.RawOperandWordHasOneForm : Prop :=
  ∀ w : Word16,
    (w.toNat < 32768 → ∃ v : Word, v.toNat = w.toNat ∧ decodeOperand w = .literal v) ∧
      (32768 ≤ w.toNat → w.toNat < 32776 →
        ∃ r : RegIx, r.val = w.toNat - 32768 ∧ decodeOperand w = .register r) ∧
      (32776 ≤ w.toNat → decodeOperand w = .invalid w)

/-- A few words written out from the tables of 30_encoding.md §1, §3 and §7 decode to the instructions
they stand for. Four of the seven the spec itself marks as derived. That operands are tagged at decode
time is the model's choice, which the spec allows (log 23). -/
def Obligations.EncodingExamplesDecode : Prop :=
  decode [9, 32768, 4, 5] = .ok (.add (.register 0) (.literal 4) (.literal 5), []) ∧
    decode [19, 32768] = .ok (.out (.register 0), []) ∧
    decode [7, 0, 6] = .ok (.jt (.literal 0) (.literal 6), []) ∧
    decode [0] = .ok (.halt, []) ∧
    decode [1, 32775, 32767] = .ok (.set (.register 7) (.literal 32767), []) ∧
    decode [16, 32769, 32770] = .ok (.wmem (.register 1) (.register 2), []) ∧
    decode [21] = .ok (.noop, [])

/-! Reset, the load port and the image. -/

/-- 10_state.md R35: "After reset `pc = 0`". -/
def Obligations.ResetPcIsZero : Prop :=
  State.reset.pc = 0 ∧ ∀ s : State, s.releaseReset.pc = 0

/-- The reset state of 10_state.md §7. Registers 0 and memory 0 are the spec's own decisions D3 and D2
(log 3, log 2); the reference configuration, the empty answers and events, and reset as a line that is
released here are the model's choice (log 6, log 7, log 10, log 11). -/
def Obligations.ResetStateValues : Prop :=
  State.reset.pc = 0 ∧ (∀ r, State.reset.readReg r = 0) ∧ State.reset.stack = [] ∧
    State.reset.run = .running ∧ (∀ i, State.reset.readMem i = 0) ∧
    State.reset.resetLine = false ∧ State.reset.cfg = Config.reference ∧
    State.reset.answers = [] ∧ State.reset.events = []

/-- "When reset is released the state is exactly the reset state", with memory "as the host left it"
(70_reset_and_hazards.md §1; reset as an event is decision D18, the register value 0 decision D3,
log 3). That the host's own configuration and answers stay and the events go is the model's choice
(log 11). -/
def Obligations.ReleasedResetKeepsOnlyMemory : Prop :=
  ∀ s : State,
    s.releaseReset.mem = s.mem ∧ s.releaseReset.pc = 0 ∧ (∀ r, s.releaseReset.readReg r = 0) ∧
      s.releaseReset.stack = [] ∧ s.releaseReset.run = .running ∧
      s.releaseReset.resetLine = false ∧ s.releaseReset.cfg = s.cfg ∧
      s.releaseReset.answers = s.answers ∧ s.releaseReset.events = []

/-- The host's load port writes one cell, and only while reset is held (10_state.md §8;
70_reset_and_hazards.md §1, decisions D1 and D18). That reset is a line in State and that a load-port
write at any other time changes nothing is the model's choice (log 11). -/
def Obligations.LoadPortWritesOnlyUnderReset : Prop :=
  ∀ (s : State) (i : Word) (v : Word16),
    (s.resetLine = false → s.loadPort i v = s) ∧
      (s.resetLine = true → ∀ j, (s.loadPort i v).readMem j =
        if j = i.toNat then v else s.readMem j)

/-- Which program images are loaded and what they leave in memory: an even number of bytes (decision
D23, log 24), at most 32768 words, no word above 32775; cell k is byte 2k + 256 * byte 2k+1, and a cell
that the image does not cover holds 0 (decision D2, log 2) (70_reset_and_hazards.md §2; 20_memory.md §2).
That the loaded memory is a canonical list of bytes (`Memory.wf m`) is the model's own form of memory
and no rule of the spec (log 1). -/
def Obligations.ImageIsLoadedOrRefused : Prop :=
  ∀ image : List Byte,
    ((∃ m, loadImage image = .ok m) ↔
      image.length % 2 = 0 ∧ image.length / 2 ≤ 32768 ∧
        ∀ k < image.length / 2,
          (image.getD (2 * k) 0).toNat + 256 * (image.getD (2 * k + 1) 0).toNat ≤ 32775) ∧
      ∀ m, loadImage image = .ok m → Memory.wf m = true ∧
        ∀ k < 32768, (readCell m k).toNat =
          if k < image.length / 2 then
            (image.getD (2 * k) 0).toNat + 256 * (image.getD (2 * k + 1) 0).toNat
          else 0

/-! The step. -/

/-- A step runs the decoded instruction: when the words of a well-formed instruction stand in memory
from the pc on, the step of a running core is `exec` of it at that same state (40_cycle.md §1;
30_encoding.md §1; one step is one whole instruction by decision D22, log 26). `exec` itself moves the
pc past the words. That operands are tagged at decode time (log 23) and that reset is a line in State
(log 11) is the model's choice. -/
def Obligations.StepRunsDecodedInstruction : Prop :=
  ∀ (s : State) (i : Instr), s.ready → i.wf = true → s.holdsAtPc (encode i) →
    step s = exec i s

/-- 40_cycle.md R91: "If `pc = 32768` in `Running`, the step sets `run <- Halted` and changes nothing
else". -/
def Obligations.PcAtEndOfMemoryHalts : Prop :=
  ∀ s : State, s.ready → s.pc = 32768 → step s = .next { s with run := .halted }

/-- An unknown opcode word under the policies skip and fault (40_cycle.md §1). The fault record's fields
and that nothing else changes are the spec's own decision D11 (log 17). The model's choices: the policy,
a parameter of decision D5, is a field of State (log 6), and the report stands in the event log of State
(log 10, with decision D20 for what a report carries). -/
def Obligations.UnknownOpcodeFollowsPolicy : Prop :=
  ∀ s : State, s.ready → s.pc.toNat < 32768 → 21 < (s.readMem s.pc.toNat).toNat →
    (s.cfg.unknownOpcode = .skip →
      step s = .next { s with
        pc := s.pc + 1
        events := s.events ++ [.reportUnknown s.pc (s.readMem s.pc.toNat)] }) ∧
      (s.cfg.unknownOpcode = .fault →
        step s = .next { s with
          run := .faulted ⟨.unknownOpcode, s.pc, s.readMem s.pc.toNat⟩ })

/-- Operand words past index 32767 fault (40_cycle.md §1, decision D6, log 13): the opcode is known,
with n operand words, and pc + n lies above 32767. The fault record's fields and that nothing else
changes are decision D11 (log 17). -/
def Obligations.OperandFetchPastEndFaults : Prop :=
  ∀ (s : State) (i : Instr), s.ready → s.pc.toNat < 32768 →
    (encode i).head? = some (s.readMem s.pc.toNat) → 32767 < s.pc.toNat + i.operands.length →
    step s = .next { s with
      run := .faulted ⟨.operandFetchOutOfRange, s.pc, s.readMem s.pc.toNat⟩ }

/-- In `Halted` and `Faulted`, and while reset is held, nothing changes (60_exceptions.md §3,
10_state.md §6, 70_reset_and_hazards.md §1, decision D18). The spec has no step there; that `step`
answers the unchanged state, and not a stop, is the model's choice (log 9 for the terminal states,
log 11 for held reset). -/
def Obligations.NoChangeWhenTerminalOrHeld : Prop :=
  ∀ s : State,
    (s.run = .halted → step s = .next s) ∧
      (∀ f, s.run = .faulted f → step s = .next s) ∧
      (s.resetLine = true → step s = .next s)

/-- The host's answer completes `in` (48_io.md completing step, decision D14, log 19; WaitInput is
decision D24, log 26): a value is written to the register, the pc moves on and the core runs again; end
of input faults, with the record and the absence of any other change of decision D11 (log 17). The
model's choices: the answers are a queue whose oldest one is taken (log 7), with no answer `step`
answers the unchanged state (log 8), the answer is logged (log 10), and a waiting pc outside memory,
shut out here, is a stop (log 5). -/
def Obligations.AnswerCompletesInput : Prop :=
  ∀ (s : State) (i : RegIx), s.resetLine = false → s.run = .waitInput i → s.pc.toNat < 32768 →
    (∀ v rest, s.answers = .value v :: rest →
      step s = .next { s with
        regs := s.regs.set i v
        pc := s.pc + 2
        run := .running
        answers := rest
        events := s.events ++ [.answered (.value v)] }) ∧
      (∀ rest, s.answers = .eof :: rest →
        step s = .next { s with
          run := .faulted ⟨.inputExhausted, s.pc, s.readMem s.pc.toNat⟩
          answers := rest
          events := s.events ++ [.answered .eof] }) ∧
      (s.answers = [] → step s = .next s)

/-! The instructions: where each completes, and with what. -/

/-- `halt` completes in every state: Halted, with the sentinel pc 32768 of decision D4 (log 4)
(41_halt_noop.md). -/
def Obligations.HaltHaltsAtSentinel : Prop :=
  encode .halt = [0] ∧
    ∀ s : State, exec .halt s = .next { s with run := .halted, pc := 32768 }

/-- `noop` completes in every state and only advances the pc (41_halt_noop.md). -/
def Obligations.NoopOnlyAdvances : Prop :=
  encode .noop = [21] ∧ ∀ s : State, exec .noop s = .next { s with pc := s.pc + 1 }

/-- `set` writes its resolved source to its register, and on a literal destination raises
DestNotRegister and writes nothing (42_data_stack.md). The fault record's fields and that nothing else
changes are the spec's own decision D11 (log 17). An invalid destination or source is in
`OperandsAreCheckedInOrder`. -/
def Obligations.SetCopiesItsSource : Prop :=
  ∀ (s : State) (d : RegIx) (b : Operand), b.isSource = true →
    encode (.set (.register d) b) = [1, encodeOperand (.register d), encodeOperand b] ∧
      (∃ t, exec (.set (.register d) b) s = .next t ∧ t.readReg d = resolve b s ∧
        OnlyRegister d 3 s t) ∧
      ∀ v, exec (.set (.literal v) b) s = .next { s with
        run := .faulted ⟨.destNotRegister, s.pc, s.readMem s.pc.toNat⟩ }

/-- 40_cycle.md §2: "if v is a literal, return v; if v names a register, return its current stored
word". That operands are tagged at decode time is the model's choice, which the spec allows (log 23). -/
def Obligations.ResolveReadsLiteralOrRegister : Prop :=
  ∀ (s : State) (w : Word16), w.toNat ≤ 32775 →
    (w.toNat < 32768 → (resolve (decodeOperand w) s).toNat = w.toNat) ∧
      (∀ r : RegIx, w.toNat = 32768 + r.val → resolve (decodeOperand w) s = s.regs[r])

/-- `push` completes on a stack that is not full (42_data_stack.md; the capacity is decision D9, log 22,
and a field of State by log 6). -/
def Obligations.PushPutsSourceOnTop : Prop :=
  ∀ (s : State) (a : Operand), a.isSource = true → s.stackFull = false →
    encode (.push a) = [2, encodeOperand a] ∧
      ∃ t v, exec (.push a) s = .next t ∧ t.stack = v :: s.stack ∧
        v.toNat = (resolve a s).toNat ∧ t.pc = s.pc + 2 ∧ SameRegs s t ∧ SameMemory s t ∧
        t.run = s.run ∧ SameInputs s t ∧ t.events = s.events

/-- `push` and `call` fault on a stack that holds its bounded capacity (42_data_stack.md,
47_call_ret.md, decision D9, log 22), and never on an unbounded one. The fault record's fields and that
nothing else changes are decision D11 (log 17). That the capacity is a field of State is the model's
choice (log 6). -/
def Obligations.FullStackFaultsPushAndCall : Prop :=
  ∀ (s : State) (a : Operand), a.isSource = true →
    (∀ n, s.cfg.stackCapacity = .bounded n → s.stack.length = n →
      ∀ i ∈ [Instr.push a, .call a], exec i s = .next { s with
        run := .faulted ⟨.stackOverflow, s.pc, s.readMem s.pc.toNat⟩ }) ∧
      (s.cfg.stackCapacity = .unbounded → s.stackFull = false) ∧
      (∀ n, s.cfg.stackCapacity = .bounded n → s.stack.length ≠ n → s.stackFull = false)

/-- `pop` completes on a stack whose top is a Word (42_data_stack.md; that a top that is no Word does
not complete is decision D10, log 16). -/
def Obligations.PopTakesTheTop : Prop :=
  ∀ (s : State) (d : RegIx) (v : Word16) (rest : List Word16), s.stack = v :: rest →
    v.toNat ≤ 32767 →
    encode (.pop (.register d)) = [3, encodeOperand (.register d)] ∧
      ∃ t, exec (.pop (.register d)) s = .next t ∧ (t.readReg d).toNat = v.toNat ∧
        t.stack = rest ∧ t.pc = s.pc + 2 ∧ SameRegsBut d s t ∧ SameMemory s t ∧
        t.run = s.run ∧ SameInputs s t ∧ t.events = s.events

/-- `pop` faults on the empty stack and on a top that is no Word (42_data_stack.md, decision D10,
log 16). The fault record's fields and that nothing else changes are decision D11 (log 17). -/
def Obligations.PopFaultsOnEmptyOrNonWord : Prop :=
  ∀ (s : State) (d : RegIx),
    (s.stack = [] → exec (.pop (.register d)) s = .next { s with
      run := .faulted ⟨.stackUnderflow, s.pc, s.readMem s.pc.toNat⟩ }) ∧
      (∀ v rest, s.stack = v :: rest → 32767 < v.toNat →
        exec (.pop (.register d)) s = .next { s with
          run := .faulted ⟨.popValueNotWord, s.pc, s.readMem s.pc.toNat⟩ })

/-- 43_compare.md R111. -/
def Obligations.EqWritesOneOrZero : Prop :=
  ∀ (s : State) (d : RegIx) (b c : Operand), b.isSource = true → c.isSource = true →
    encode (.eq (.register d) b c) =
        [4, encodeOperand (.register d), encodeOperand b, encodeOperand c] ∧
      ∃ t, exec (.eq (.register d) b c) s = .next t ∧
        (t.readReg d).toNat = (if resolve b s = resolve c s then 1 else 0) ∧
        OnlyRegister d 4 s t

/-- 43_compare.md R112. -/
def Obligations.GtWritesOneOrZero : Prop :=
  ∀ (s : State) (d : RegIx) (b c : Operand), b.isSource = true → c.isSource = true →
    encode (.gt (.register d) b c) =
        [5, encodeOperand (.register d), encodeOperand b, encodeOperand c] ∧
      ∃ t, exec (.gt (.register d) b c) s = .next t ∧
        (t.readReg d).toNat =
          (if (resolve b s).toNat > (resolve c s).toNat then 1 else 0) ∧
        OnlyRegister d 4 s t

/-- `jmp` completes on every accepted target: an absolute index, with no default advance
(44_branch.md). -/
def Obligations.JmpGoesToItsTarget : Prop :=
  ∀ (s : State) (a : Operand), a.isSource = true →
    encode (.jmp a) = [6, encodeOperand a] ∧
      ∃ t, exec (.jmp a) s = .next t ∧ t.pc.toNat = (resolve a s).toNat ∧ OnlyPc s t

/-- `jt` jumps on a condition that is not 0 and advances by 3 words on 0; `jf` the other way round
(44_branch.md; that the target is checked even when it is not taken is decision D12, log 18). -/
def Obligations.JtAndJfTestAgainstZero : Prop :=
  ∀ (s : State) (a b : Operand), a.isSource = true → b.isSource = true →
    encode (.jt a b) = [7, encodeOperand a, encodeOperand b] ∧
      encode (.jf a b) = [8, encodeOperand a, encodeOperand b] ∧
      ∃ t u, exec (.jt a b) s = .next t ∧ exec (.jf a b) s = .next u ∧ OnlyPc s t ∧ OnlyPc s u ∧
        ((resolve a s).toNat ≠ 0 → t.pc.toNat = (resolve b s).toNat ∧ u.pc = s.pc + 3) ∧
        ((resolve a s).toNat = 0 → t.pc = s.pc + 3 ∧ u.pc.toNat = (resolve b s).toNat)

/-- 45_alu.md R117. -/
def Obligations.AddWritesSumModulo : Prop :=
  ∀ (s : State) (d : RegIx) (b c : Operand), b.isSource = true → c.isSource = true →
    encode (.add (.register d) b c) =
        [9, encodeOperand (.register d), encodeOperand b, encodeOperand c] ∧
      ∃ t, exec (.add (.register d) b c) s = .next t ∧
        (t.readReg d).toNat = ((resolve b s).toNat + (resolve c s).toNat) % 32768 ∧
        OnlyRegister d 4 s t

/-- 45_alu.md R118. -/
def Obligations.MultWritesProductModulo : Prop :=
  ∀ (s : State) (d : RegIx) (b c : Operand), b.isSource = true → c.isSource = true →
    encode (.mult (.register d) b c) =
        [10, encodeOperand (.register d), encodeOperand b, encodeOperand c] ∧
      ∃ t, exec (.mult (.register d) b c) s = .next t ∧
        (t.readReg d).toNat = ((resolve b s).toNat * (resolve c s).toNat) % 32768 ∧
        OnlyRegister d 4 s t

/-- `mod` completes on every divisor but 0, and faults on 0 by the spec's own decision D7 (log 14)
(45_alu.md). The fault record's fields and that nothing else changes are decision D11 (log 17). -/
def Obligations.ModWritesRemainderOrFaults : Prop :=
  ∀ (s : State) (d : RegIx) (b c : Operand), b.isSource = true → c.isSource = true →
    encode (.mod (.register d) b c) =
        [11, encodeOperand (.register d), encodeOperand b, encodeOperand c] ∧
      ((resolve c s).toNat ≠ 0 →
        ∃ t, exec (.mod (.register d) b c) s = .next t ∧
          (t.readReg d).toNat = (resolve b s).toNat % (resolve c s).toNat ∧
          OnlyRegister d 4 s t) ∧
      ((resolve c s).toNat = 0 → exec (.mod (.register d) b c) s = .next { s with
        run := .faulted ⟨.divideByZero, s.pc, s.readMem s.pc.toNat⟩ })

/-- 45_alu.md R120. -/
def Obligations.AndWritesBitwiseAnd : Prop :=
  ∀ (s : State) (d : RegIx) (b c : Operand), b.isSource = true → c.isSource = true →
    encode (.and (.register d) b c) =
        [12, encodeOperand (.register d), encodeOperand b, encodeOperand c] ∧
      ∃ t, exec (.and (.register d) b c) s = .next t ∧
        (t.readReg d).toNat = ((resolve b s).toNat &&& (resolve c s).toNat) &&& 0x7FFF ∧
        OnlyRegister d 4 s t

/-- 45_alu.md R121. -/
def Obligations.OrWritesBitwiseOr : Prop :=
  ∀ (s : State) (d : RegIx) (b c : Operand), b.isSource = true → c.isSource = true →
    encode (.or (.register d) b c) =
        [13, encodeOperand (.register d), encodeOperand b, encodeOperand c] ∧
      ∃ t, exec (.or (.register d) b c) s = .next t ∧
        (t.readReg d).toNat = ((resolve b s).toNat ||| (resolve c s).toNat) &&& 0x7FFF ∧
        OnlyRegister d 4 s t

/-- 45_alu.md R122. -/
def Obligations.NotWritesComplement : Prop :=
  ∀ (s : State) (d : RegIx) (b : Operand), b.isSource = true →
    encode (.not (.register d) b) = [14, encodeOperand (.register d), encodeOperand b] ∧
      ∃ t, exec (.not (.register d) b) s = .next t ∧
        (t.readReg d).toNat = 32767 - (resolve b s).toNat ∧ OnlyRegister d 3 s t

/-- `rmem` completes on a cell that holds a Word, and faults on any other by the spec's own decision
D8 (log 15) (46_memory_ops.md). The fault record's fields and that nothing else changes are decision
D11 (log 17). -/
def Obligations.RmemReadsCellOrFaults : Prop :=
  ∀ (s : State) (d : RegIx) (b : Operand), b.isSource = true →
    encode (.rmem (.register d) b) = [15, encodeOperand (.register d), encodeOperand b] ∧
      ((s.readMem (resolve b s).toNat).toNat ≤ 32767 →
        ∃ t, exec (.rmem (.register d) b) s = .next t ∧
          (t.readReg d).toNat = (s.readMem (resolve b s).toNat).toNat ∧ OnlyRegister d 3 s t) ∧
      (32767 < (s.readMem (resolve b s).toNat).toNat →
        exec (.rmem (.register d) b) s = .next { s with
          run := .faulted ⟨.memoryWordNotValue, s.pc, s.readMem s.pc.toNat⟩ })

/-- `wmem` writes its resolved value to the cell at its resolved address (46_memory_ops.md). The stored
cell is at `wmemAddress a s`, the index the meaning writes; that it is bytes 2i and 2i + 1 of a memory
of bytes is the model's choice (log 1). Every other byte reads as before. -/
def Obligations.WmemWritesOneCell : Prop :=
  ∀ (s : State) (a b : Operand), a.isSource = true → b.isSource = true →
    encode (.wmem a b) = [16, encodeOperand a, encodeOperand b] ∧
      wmemAddress a s = (resolve a s).toNat ∧
      ∃ t, exec (.wmem a b) s = .next t ∧
        (t.readMem (wmemAddress a s)).toNat = (resolve b s).toNat ∧
        (∀ x, x / 2 ≠ wmemAddress a s → readByte t.mem x = readByte s.mem x) ∧
        t.pc = s.pc + 3 ∧ SameRegs s t ∧ t.stack = s.stack ∧ t.run = s.run ∧ SameInputs s t ∧
        t.events = s.events

/-- `call` completes on a stack that is not full: it pushes its address + 2 and jumps
(47_call_ret.md; the capacity is decision D9, log 22, and a field of State by log 6; the return address
32768 is decision D10, log 16). -/
def Obligations.CallPushesReturnAddress : Prop :=
  ∀ (s : State) (a : Operand), a.isSource = true → s.stackFull = false →
    encode (.call a) = [17, encodeOperand a] ∧
      ∃ t, exec (.call a) s = .next t ∧ t.stack = (s.pc + 2) :: s.stack ∧
        t.pc.toNat = (resolve a s).toNat ∧ SameRegs s t ∧ SameMemory s t ∧ t.run = s.run ∧
        SameInputs s t ∧ t.events = s.events

/-- `ret` completes in every state: it jumps to the popped entry, or halts normally on the empty stack
with the sentinel pc of decision D4 (log 4) (47_call_ret.md). -/
def Obligations.RetPopsOrHalts : Prop :=
  encode .ret = [18] ∧
    ∀ s : State,
      (∀ v rest, s.stack = v :: rest → exec .ret s = .next { s with pc := v, stack := rest }) ∧
        (s.stack = [] → exec .ret s = .next { s with run := .halted, pc := 32768 })

/-- `out` completes on every accepted source: one event with the whole Word; the conversion to a
character is the host's (48_io.md, decision D13, log 21). That the event stands in the event log of
State is the model's choice (log 10). -/
def Obligations.OutEmitsTheWholeWord : Prop :=
  ∀ (s : State) (a : Operand), a.isSource = true →
    encode (.out a) = [19, encodeOperand a] ∧
      exec (.out a) s = .next { s with
        pc := s.pc + 2, events := s.events ++ [.emitOut (resolve a s)] }

/-- `in` completes its issuing step on every register destination: the core waits at the same pc
(48_io.md; that the check comes before the wait is decision D12, log 18; WaitInput is decision D24,
log 26). That the event stands in the event log of State is the model's choice (log 10). -/
def Obligations.InputWaitsAtItsPc : Prop :=
  ∀ (s : State) (d : RegIx),
    encode (.input (.register d)) = [20, encodeOperand (.register d)] ∧
      exec (.input (.register d)) s = .next { s with
        run := .waitInput d, events := s.events ++ [.awaitIn] }

/-! Faults. -/

/-- The operand check of 40_cycle.md §1 (its order is decision D12, log 18): for every instruction, the
first operand word in the order a, b, c that its role does not accept raises its fault, and nothing else
changes (60_exceptions.md §3, decision D11, log 17). -/
def Obligations.OperandsAreCheckedInOrder : Prop :=
  ∀ (i : Instr) (s : State) (cause : FaultCause), i.wf = true →
    firstOperandFault i = some cause →
    exec i s = .next { s with run := .faulted ⟨cause, s.pc, s.readMem s.pc.toNat⟩ }

/-- Faults are precise: an instruction that ends in `Faulted` changes only the run state, and the
record holds the pc and the cell there (60_exceptions.md §1, §3, decision D11, log 17). -/
def Obligations.FaultsArePrecise : Prop :=
  ∀ (i : Instr) (s t : State) (f : FaultRecord), s.run = .running → exec i s = .next t →
    t.run = .faulted f →
    t = { s with run := .faulted f } ∧ f.fpc = s.pc ∧ f.opword = s.readMem s.pc.toNat

/-! Rules about all instructions: what none of them changes. -/

/-- A register is written only through the destination operand of an instruction, and not by `in`
before its answer comes (10_state.md §3, 48_io.md; that the answer is a step of its own is decision D24,
log 26). -/
def Obligations.OnlyDestinationRegisterChanges : Prop :=
  ∀ (i : Instr) (s t : State), exec i s = .next t →
    (∀ q, destination i ≠ some q → t.readReg q = s.readReg q) ∧
      ((∃ a, i = .input a) → SameRegs s t)

/-- `wmem` is the one instruction that writes memory, and it writes one cell (20_memory.md §1, §3). That
a cell is two bytes of a memory of bytes is the model's choice (log 1). -/
def Obligations.OnlyWmemWritesMemory : Prop :=
  ∀ (i : Instr) (s t : State), exec i s = .next t →
    (∀ a b, i = .wmem a b →
      ∀ x, x / 2 ≠ wmemAddress a s → readByte t.mem x = readByte s.mem x) ∧
      ((∀ a b, i ≠ .wmem a b) → SameMemory s t)

/-- Only push, pop, call and ret touch the stack, by at most one entry (10_state.md §5). -/
def Obligations.OnlyFourInstructionsTouchStack : Prop :=
  ∀ (i : Instr) (s t : State), exec i s = .next t →
    t.stack = s.stack ∨
      (∃ a v, (i = .push a ∨ i = .call a) ∧ t.stack = v :: s.stack) ∨
      (∃ v, (i = .ret ∨ ∃ a, i = .pop a) ∧ s.stack = v :: t.stack)

/-- Only `out` and `in` make an event, and no instruction changes an input of the block
(10_state.md §6, §8; 48_io.md). That events, answers, configuration and reset line are fields of State
is the model's choice (log 10, log 7, log 6, log 11). -/
def Obligations.OnlyIoMakesEvents : Prop :=
  ∀ (i : Instr) (s t : State), exec i s = .next t →
    SameInputs s t ∧
      (t.events = s.events ∨
        (∃ a, i = .out a ∧ t.events = s.events ++ [.emitOut (resolve a s)]) ∨
        (∃ a, i = .input a ∧ t.events = s.events ++ [.awaitIn]))

/-- "pc advances by the instruction's total word length unless stated" (10_state.md §4, 40_cycle.md
§1): every instruction that is no jump, call, ret, halt or in, and that does not fault, moves the pc by
its length. -/
def Obligations.PcAdvancesByLength : Prop :=
  ∀ (i : Instr) (s t : State), exec i s = .next t → s.run = .running → t.run = .running →
    (∀ a b, i ≠ .jmp a ∧ i ≠ .jt a b ∧ i ≠ .jf a b ∧ i ≠ .call a) → i ≠ .ret →
    t.pc = s.pc + BitVec.ofNat 16 (encode i).length

/-! Laws of two steps. -/

/-- "a sequence of push(v) followed immediately by pop() yields v" (10_state.md §5; the capacity is
decision D9, log 22, and a field of State by log 6). -/
def Obligations.PopAfterPushYieldsTheValue : Prop :=
  ∀ (s : State) (a : Operand) (d : RegIx), a.isSource = true → s.stackFull = false →
    ∃ t u, exec (.push a) s = .next t ∧ exec (.pop (.register d)) t = .next u ∧
      u.readReg d = resolve a s ∧ u.stack = s.stack ∧ u.run = s.run

/-- "executing `call a` then, with no intervening stack mutation, executing `ret` resumes at the
instruction immediately after the original `call`" (47_call_ret.md; the capacity is decision D9, log 22,
and a field of State by log 6). The state u is any one whose stack is as the call left it. -/
def Obligations.RetAfterCallResumes : Prop :=
  ∀ (s t u : State) (a : Operand), a.isSource = true → s.stackFull = false →
    exec (.call a) s = .next t → u.stack = t.stack →
    exec .ret u = .next { u with pc := s.pc + 2, stack := s.stack }

/-- A `wmem` is seen by every later fetch of its cell, starting with the very next instruction, and by
the fetch of no other cell (20_memory.md §5, decision D15, log 20). -/
def Obligations.NextFetchSeesTheStore : Prop :=
  ∀ (s t : State) (a b : Operand), a.isSource = true → b.isSource = true →
    exec (.wmem a b) s = .next t →
    ∀ k < 4, t.pc.toNat + k < 32768 →
      (fetchWords t)[k]? =
        some (if t.pc.toNat + k = wmemAddress a s then (resolve b s).setWidth 16
          else s.readMem (t.pc.toNat + k))

/-! Invariants and the run-state machine. -/

/-- The invariant that every step keeps, and the bound on every cell, hold at reset: the base case of
`StepKeepsInvariant` and `StepKeepsCellsLoaded` (10_state.md §7, §2). Its clauses rest on choices:
canonical memory is the model's own form (log 1); that every cell is in range rests on the 0 of memory
that nothing has written (decision D2, log 2); that the stack fits is about the reference capacity, in a
field of State (decision D9, log 22, log 6), and holds for any, the stack being empty. -/
def Obligations.ResetMeetsInvariant : Prop := State.reset.Inv ∧ State.reset.CellsLoaded

/-- Every step keeps the invariant: canonical memory (the model's own form, log 1), pc at most 32768
(10_state.md §4, decision D4, log 4), stack entries at most 32768 and within the capacity (10_state.md
§5, decisions D9 and D10, log 22, log 16), a halted pc of 32768 (decision D4, log 4), a fault record
that names the pc and its cell (60_exceptions.md §3, decision D11, log 17), a waiting core that stands
at its `in` (48_io.md, decision D24, log 26). The steps that answer the unchanged state (log 8, log 9,
log 11) keep it too. -/
def Obligations.StepKeepsInvariant : Prop :=
  ∀ s t : State, s.Inv → step s = .next t → t.Inv

/-- "during a run every cell holds a value in [0, 32775]" (10_state.md §2), a sentence the spec marks as
its own derivation; the cell's width is decision D17 (log 4). -/
def Obligations.StepKeepsCellsLoaded : Prop :=
  ∀ s t : State, s.CellsLoaded → step s = .next t → t.CellsLoaded

/-- From every state of the invariant the step answers a next state: the model stops nowhere, and the
spec's own faults and halts are next states too (40_cycle.md §1, 60_exceptions.md §3, decision D11,
log 17). Where the spec has no step or is stuck, that `step` answers the unchanged state is the model's
choice: WaitInput with no answer (log 8), Halted and Faulted (log 9), reset held (log 11). The one stop,
a pc outside memory, is shut out by the invariant (log 5), whose canonical memory is log 1. -/
def Obligations.StepNeverStops : Prop :=
  ∀ s : State, s.Inv → ∃ t, step s = .next t

/-- The run-state machine (10_state.md §6; WaitInput is decision D24, log 26; end of input is decision
D14, log 19): when a step of a running core halts or waits, what a waiting core may become, and that a
terminal one stays. That a waiting core with no answer and a terminal core answer the unchanged state is
the model's choice (log 8, log 9), and so is the stop shut out by the invariant (log 5), whose canonical
memory is log 1. -/
def Obligations.RunStateMovesByItsArcs : Prop :=
  ∀ s t : State, s.Inv → s.resetLine = false → step s = .next t →
    (s.run = .running →
      (t.run = .halted ↔ s.pc = 32768 ∨ (∃ rest, decode (fetchWords s) = .ok (.halt, rest)) ∨
        (∃ rest, decode (fetchWords s) = .ok (.ret, rest) ∧ s.stack = [])) ∧
      ∀ r, t.run = .waitInput r ↔
        ∃ rest, decode (fetchWords s) = .ok (.input (.register r), rest)) ∧
      (∀ r, s.run = .waitInput r →
        t = s ∨ t.run = .running ∨ ∃ f, t.run = .faulted f ∧ f.cause = .inputExhausted) ∧
      (s.run = .halted → t.run = .halted) ∧
      (∀ f, s.run = .faulted f → t.run = .faulted f)

/-- A step keeps the configuration and the reset line (10_state.md §8), takes at most one answer, the
oldest, and only adds events, at most one, after the earlier ones. The spec has no queue of answers and
no log: that the answers stand in a queue whose oldest one is taken is the model's choice (log 7), and
so is the event list (log 10). What the spec says is that the host answers once (10_state.md §8) and
that events come in program order (20_memory.md §5, decision D19). That the configuration and the reset
line are fields of State (log 6, log 11), and the steps that answer the unchanged state (log 8, log 9,
log 11), are the model's choice too. -/
def Obligations.StepKeepsInputsAndAddsEvents : Prop :=
  ∀ s t : State, step s = .next t →
    t.cfg = s.cfg ∧ t.resetLine = s.resetLine ∧
      (t.answers = s.answers ∨ ∃ a, s.answers = a :: t.answers) ∧
      ∃ es, t.events = s.events ++ es ∧ es.length ≤ 1

/-- Two canonical memories that read the same are the same data (the model's own form of memory,
log 1; 20_memory.md §3). -/
def Obligations.CanonicalMemoryIsItsReads : Prop :=
  ∀ m n : List Host.Cell, Memory.wf m = true → Memory.wf n = true →
    (∀ a, readByte m a = readByte n a) → m = n
end

