-- ==== Sys2Proof/Laws/Decode.lean ====
section
/-! SUPPORT. The laws of operand words and of the opcode map, which the round trips rest on. -/

namespace Sys2Proof

/-- The literal form of a raw word below 32768 (30_encoding.md R74). -/
theorem decodeOperand_literal {w : Word16} (h : w.toNat < 32768) :
    decodeOperand w = .literal (BitVec.ofNat 15 w.toNat) := by
  rw [decodeOperand, if_pos h]

/-- The register form of a raw word 32768 to 32775 (30_encoding.md R74). -/
theorem decodeOperand_register {w : Word16} (h : 32768 ≤ w.toNat) (h' : w.toNat < 32776) :
    decodeOperand w = .register (Fin.ofNat 8 (w.toNat - 32768)) := by
  rw [decodeOperand, if_neg (Nat.not_lt.2 h), if_pos h']

/-- The invalid form of a raw word above 32775 (30_encoding.md R74). -/
theorem decodeOperand_invalid {w : Word16} (h : 32775 < w.toNat) :
    decodeOperand w = .invalid w := by
  have h1 : ¬ w.toNat < 32768 := by omega
  have h2 : ¬ w.toNat < 32776 := by omega
  rw [decodeOperand, if_neg h1, if_neg h2]

/-- The raw word of a literal is its value. -/
@[simp] theorem encodeOperand_literal_toNat (v : Word) :
    (encodeOperand (.literal v)).toNat = v.toNat := by
  have h := v.isLt
  simp only [encodeOperand, BitVec.toNat_setWidth]
  omega

/-- The raw word of register r is 32768 + r (10_state.md R26). -/
@[simp] theorem encodeOperand_register_toNat (r : RegIx) :
    (encodeOperand (.register r)).toNat = 32768 + r.val := by
  have h := r.isLt
  simp only [encodeOperand, BitVec.toNat_ofNat]
  omega

/-- A well-formed operand is the tag of its own raw word. -/
theorem decodeOperand_encodeOperand {o : Operand} (h : o.wf = true) :
    decodeOperand (encodeOperand o) = o := by
  cases o with
  | literal v =>
    rw [decodeOperand_literal (by rw [encodeOperand_literal_toNat]; exact v.isLt)]
    simp
  | register r =>
    have hr := r.isLt
    rw [decodeOperand_register (by rw [encodeOperand_register_toNat]; omega)
      (by rw [encodeOperand_register_toNat]; omega), encodeOperand_register_toNat]
    simp
  | invalid w => exact decodeOperand_invalid (of_decide_eq_true h)

/-- The tag of a raw word stands for that word. -/
@[simp] theorem encodeOperand_decodeOperand (w : Word16) :
    encodeOperand (decodeOperand w) = w := by
  apply BitVec.eq_of_toNat_eq
  by_cases h1 : w.toNat < 32768
  · rw [decodeOperand_literal h1, encodeOperand_literal_toNat, BitVec.toNat_ofNat]; omega
  · by_cases h2 : w.toNat < 32776
    · rw [decodeOperand_register (by omega) h2, encodeOperand_register_toNat]
      simp only [Fin.val_ofNat]; omega
    · rw [decodeOperand_invalid (by omega), encodeOperand]

/-- Every raw word's tag is well formed. -/
@[simp] theorem decodeOperand_wf (w : Word16) : (decodeOperand w).wf = true := by
  by_cases h1 : w.toNat < 32768
  · rw [decodeOperand_literal h1]; rfl
  · by_cases h2 : w.toNat < 32776
    · rw [decodeOperand_register (by omega) h2]; rfl
    · rw [decodeOperand_invalid (by omega)]; simp [Operand.wf]; omega

/-- The opcode map knows 0 to 21 and nothing else (30_encoding.md R78, R80). -/
theorem opcodeForm_eq_none_iff (n : Nat) : opcodeForm n = none ↔ 21 < n := by
  by_cases h : n ≤ 21
  · interval_cases n <;> simp [opcodeForm]
  · obtain ⟨k, rfl⟩ : ∃ k, n = k + 22 := ⟨n - 22, by omega⟩
    simp [opcodeForm]

/-- A format takes its operand words exactly when the list holds that many. -/
theorem Form.take_eq_none_iff (f : Form) (ws : List Word16) :
    f.take ws = none ↔ ws.length < f.count := by
  cases f with
  | f0 i => simp [Form.take, Form.count]
  | f1 mk => rcases ws with _ | ⟨a, ws⟩ <;> simp [Form.take, Form.count]
  | f2 mk => rcases ws with _ | ⟨a, _ | ⟨b, ws⟩⟩ <;> simp [Form.take, Form.count]
  | f3 mk => rcases ws with _ | ⟨a, _ | ⟨b, _ | ⟨c, ws⟩⟩⟩ <;> simp [Form.take, Form.count]

/-- The decoder on a word above 21. -/
theorem decode_unknown {w : Word16} (h : 21 < w.toNat) (ws : List Word16) :
    decode (w :: ws) = .error (.unknownOpcode w) := by
  simp [decode, (opcodeForm_eq_none_iff _).2 h]

/-- What the decoder's `ok` says: the opcode word's form took the operand words. -/
theorem decode_ok {ws rest : List Word16} {i : Instr} (h : decode ws = .ok (i, rest)) :
    ∃ w ws' f, ws = w :: ws' ∧ opcodeForm w.toNat = some f ∧ f.take ws' = some (i, rest) := by
  cases ws with
  | nil => simp [decode] at h
  | cons w ws' =>
    simp only [decode] at h
    split at h
    · cases h
    · rename_i f hf
      split at h
      · cases h
      · rename_i r hr
        cases h
        exact ⟨w, ws', f, rfl, hf, hr⟩

end Sys2Proof
end

