-- ==== Sys2Proof/Laws/State.lean ====
section
/-! SUPPORT. One lemma per field per update of State, so that no proof unfolds a record update. -/

namespace Sys2Proof.Machine

variable (s : State)

@[simp] theorem State.writeReg_mem (i : RegIx) (v : Word) :
    (s.writeReg i v).mem = s.mem := rfl
@[simp] theorem State.writeReg_regs (i : RegIx) (v : Word) :
    (s.writeReg i v).regs = s.regs.set i v := rfl
@[simp] theorem State.writeReg_pc (i : RegIx) (v : Word) :
    (s.writeReg i v).pc = s.pc := rfl
@[simp] theorem State.writeReg_stack (i : RegIx) (v : Word) :
    (s.writeReg i v).stack = s.stack := rfl
@[simp] theorem State.writeReg_run (i : RegIx) (v : Word) :
    (s.writeReg i v).run = s.run := rfl
@[simp] theorem State.writeReg_cfg (i : RegIx) (v : Word) :
    (s.writeReg i v).cfg = s.cfg := rfl
@[simp] theorem State.writeReg_resetLine (i : RegIx) (v : Word) :
    (s.writeReg i v).resetLine = s.resetLine := rfl
@[simp] theorem State.writeReg_answers (i : RegIx) (v : Word) :
    (s.writeReg i v).answers = s.answers := rfl
@[simp] theorem State.writeReg_events (i : RegIx) (v : Word) :
    (s.writeReg i v).events = s.events := rfl

@[simp] theorem State.writeMem_mem (i : Nat) (v : Word16) :
    (s.writeMem i v).mem = writeCell s.mem i v := rfl
@[simp] theorem State.writeMem_regs (i : Nat) (v : Word16) :
    (s.writeMem i v).regs = s.regs := rfl
@[simp] theorem State.writeMem_pc (i : Nat) (v : Word16) :
    (s.writeMem i v).pc = s.pc := rfl
@[simp] theorem State.writeMem_stack (i : Nat) (v : Word16) :
    (s.writeMem i v).stack = s.stack := rfl
@[simp] theorem State.writeMem_run (i : Nat) (v : Word16) :
    (s.writeMem i v).run = s.run := rfl
@[simp] theorem State.writeMem_cfg (i : Nat) (v : Word16) :
    (s.writeMem i v).cfg = s.cfg := rfl
@[simp] theorem State.writeMem_resetLine (i : Nat) (v : Word16) :
    (s.writeMem i v).resetLine = s.resetLine := rfl
@[simp] theorem State.writeMem_answers (i : Nat) (v : Word16) :
    (s.writeMem i v).answers = s.answers := rfl
@[simp] theorem State.writeMem_events (i : Nat) (v : Word16) :
    (s.writeMem i v).events = s.events := rfl

@[simp] theorem State.setPc_mem (v : Word16) :
    (s.setPc v).mem = s.mem := rfl
@[simp] theorem State.setPc_regs (v : Word16) :
    (s.setPc v).regs = s.regs := rfl
@[simp] theorem State.setPc_pc (v : Word16) :
    (s.setPc v).pc = v := rfl
@[simp] theorem State.setPc_stack (v : Word16) :
    (s.setPc v).stack = s.stack := rfl
@[simp] theorem State.setPc_run (v : Word16) :
    (s.setPc v).run = s.run := rfl
@[simp] theorem State.setPc_cfg (v : Word16) :
    (s.setPc v).cfg = s.cfg := rfl
@[simp] theorem State.setPc_resetLine (v : Word16) :
    (s.setPc v).resetLine = s.resetLine := rfl
@[simp] theorem State.setPc_answers (v : Word16) :
    (s.setPc v).answers = s.answers := rfl
@[simp] theorem State.setPc_events (v : Word16) :
    (s.setPc v).events = s.events := rfl

@[simp] theorem State.advance_mem (n : Nat) :
    (s.advance n).mem = s.mem := rfl
@[simp] theorem State.advance_regs (n : Nat) :
    (s.advance n).regs = s.regs := rfl
@[simp] theorem State.advance_pc (n : Nat) :
    (s.advance n).pc = s.pc + BitVec.ofNat 16 n := rfl
@[simp] theorem State.advance_stack (n : Nat) :
    (s.advance n).stack = s.stack := rfl
@[simp] theorem State.advance_run (n : Nat) :
    (s.advance n).run = s.run := rfl
@[simp] theorem State.advance_cfg (n : Nat) :
    (s.advance n).cfg = s.cfg := rfl
@[simp] theorem State.advance_resetLine (n : Nat) :
    (s.advance n).resetLine = s.resetLine := rfl
@[simp] theorem State.advance_answers (n : Nat) :
    (s.advance n).answers = s.answers := rfl
@[simp] theorem State.advance_events (n : Nat) :
    (s.advance n).events = s.events := rfl

@[simp] theorem State.push_mem (v : Word16) :
    (s.push v).mem = s.mem := rfl
@[simp] theorem State.push_regs (v : Word16) :
    (s.push v).regs = s.regs := rfl
@[simp] theorem State.push_pc (v : Word16) :
    (s.push v).pc = s.pc := rfl
@[simp] theorem State.push_stack (v : Word16) :
    (s.push v).stack = v :: s.stack := rfl
@[simp] theorem State.push_run (v : Word16) :
    (s.push v).run = s.run := rfl
@[simp] theorem State.push_cfg (v : Word16) :
    (s.push v).cfg = s.cfg := rfl
@[simp] theorem State.push_resetLine (v : Word16) :
    (s.push v).resetLine = s.resetLine := rfl
@[simp] theorem State.push_answers (v : Word16) :
    (s.push v).answers = s.answers := rfl
@[simp] theorem State.push_events (v : Word16) :
    (s.push v).events = s.events := rfl

@[simp] theorem State.setStack_mem (v : List Word16) :
    (s.setStack v).mem = s.mem := rfl
@[simp] theorem State.setStack_regs (v : List Word16) :
    (s.setStack v).regs = s.regs := rfl
@[simp] theorem State.setStack_pc (v : List Word16) :
    (s.setStack v).pc = s.pc := rfl
@[simp] theorem State.setStack_stack (v : List Word16) :
    (s.setStack v).stack = v := rfl
@[simp] theorem State.setStack_run (v : List Word16) :
    (s.setStack v).run = s.run := rfl
@[simp] theorem State.setStack_cfg (v : List Word16) :
    (s.setStack v).cfg = s.cfg := rfl
@[simp] theorem State.setStack_resetLine (v : List Word16) :
    (s.setStack v).resetLine = s.resetLine := rfl
@[simp] theorem State.setStack_answers (v : List Word16) :
    (s.setStack v).answers = s.answers := rfl
@[simp] theorem State.setStack_events (v : List Word16) :
    (s.setStack v).events = s.events := rfl

@[simp] theorem State.setRun_mem (v : RunState) :
    (s.setRun v).mem = s.mem := rfl
@[simp] theorem State.setRun_regs (v : RunState) :
    (s.setRun v).regs = s.regs := rfl
@[simp] theorem State.setRun_pc (v : RunState) :
    (s.setRun v).pc = s.pc := rfl
@[simp] theorem State.setRun_stack (v : RunState) :
    (s.setRun v).stack = s.stack := rfl
@[simp] theorem State.setRun_run (v : RunState) :
    (s.setRun v).run = v := rfl
@[simp] theorem State.setRun_cfg (v : RunState) :
    (s.setRun v).cfg = s.cfg := rfl
@[simp] theorem State.setRun_resetLine (v : RunState) :
    (s.setRun v).resetLine = s.resetLine := rfl
@[simp] theorem State.setRun_answers (v : RunState) :
    (s.setRun v).answers = s.answers := rfl
@[simp] theorem State.setRun_events (v : RunState) :
    (s.setRun v).events = s.events := rfl

@[simp] theorem State.emit_mem (e : Event) :
    (s.emit e).mem = s.mem := rfl
@[simp] theorem State.emit_regs (e : Event) :
    (s.emit e).regs = s.regs := rfl
@[simp] theorem State.emit_pc (e : Event) :
    (s.emit e).pc = s.pc := rfl
@[simp] theorem State.emit_stack (e : Event) :
    (s.emit e).stack = s.stack := rfl
@[simp] theorem State.emit_run (e : Event) :
    (s.emit e).run = s.run := rfl
@[simp] theorem State.emit_cfg (e : Event) :
    (s.emit e).cfg = s.cfg := rfl
@[simp] theorem State.emit_resetLine (e : Event) :
    (s.emit e).resetLine = s.resetLine := rfl
@[simp] theorem State.emit_answers (e : Event) :
    (s.emit e).answers = s.answers := rfl
@[simp] theorem State.emit_events (e : Event) :
    (s.emit e).events = s.events ++ [e] := rfl

@[simp] theorem State.setAnswers_mem (v : List HostAnswer) :
    (s.setAnswers v).mem = s.mem := rfl
@[simp] theorem State.setAnswers_regs (v : List HostAnswer) :
    (s.setAnswers v).regs = s.regs := rfl
@[simp] theorem State.setAnswers_pc (v : List HostAnswer) :
    (s.setAnswers v).pc = s.pc := rfl
@[simp] theorem State.setAnswers_stack (v : List HostAnswer) :
    (s.setAnswers v).stack = s.stack := rfl
@[simp] theorem State.setAnswers_run (v : List HostAnswer) :
    (s.setAnswers v).run = s.run := rfl
@[simp] theorem State.setAnswers_cfg (v : List HostAnswer) :
    (s.setAnswers v).cfg = s.cfg := rfl
@[simp] theorem State.setAnswers_resetLine (v : List HostAnswer) :
    (s.setAnswers v).resetLine = s.resetLine := rfl
@[simp] theorem State.setAnswers_answers (v : List HostAnswer) :
    (s.setAnswers v).answers = v := rfl
@[simp] theorem State.setAnswers_events (v : List HostAnswer) :
    (s.setAnswers v).events = s.events := rfl

@[simp] theorem State.faultedBy_mem (c : FaultCause) :
    (s.faultedBy c).mem = s.mem := rfl
@[simp] theorem State.faultedBy_regs (c : FaultCause) :
    (s.faultedBy c).regs = s.regs := rfl
@[simp] theorem State.faultedBy_pc (c : FaultCause) :
    (s.faultedBy c).pc = s.pc := rfl
@[simp] theorem State.faultedBy_stack (c : FaultCause) :
    (s.faultedBy c).stack = s.stack := rfl
@[simp] theorem State.faultedBy_run (c : FaultCause) :
    (s.faultedBy c).run = .faulted { cause := c, fpc := s.pc, opword := s.readMem s.pc.toNat } := rfl
@[simp] theorem State.faultedBy_cfg (c : FaultCause) :
    (s.faultedBy c).cfg = s.cfg := rfl
@[simp] theorem State.faultedBy_resetLine (c : FaultCause) :
    (s.faultedBy c).resetLine = s.resetLine := rfl
@[simp] theorem State.faultedBy_answers (c : FaultCause) :
    (s.faultedBy c).answers = s.answers := rfl
@[simp] theorem State.faultedBy_events (c : FaultCause) :
    (s.faultedBy c).events = s.events := rfl

@[simp] theorem State.haltedAtEnd_mem : s.haltedAtEnd.mem = s.mem := rfl
@[simp] theorem State.haltedAtEnd_regs : s.haltedAtEnd.regs = s.regs := rfl
@[simp] theorem State.haltedAtEnd_pc : s.haltedAtEnd.pc = 32768 := rfl
@[simp] theorem State.haltedAtEnd_stack : s.haltedAtEnd.stack = s.stack := rfl
@[simp] theorem State.haltedAtEnd_run : s.haltedAtEnd.run = .halted := rfl
@[simp] theorem State.haltedAtEnd_cfg : s.haltedAtEnd.cfg = s.cfg := rfl
@[simp] theorem State.haltedAtEnd_resetLine : s.haltedAtEnd.resetLine = s.resetLine := rfl
@[simp] theorem State.haltedAtEnd_answers : s.haltedAtEnd.answers = s.answers := rfl
@[simp] theorem State.haltedAtEnd_events : s.haltedAtEnd.events = s.events := rfl

/-! Reads after an update. -/

/-- A register reads back the Word written to it. -/
@[simp] theorem State.readReg_writeReg_self (i : RegIx) (v : Word) :
    (s.writeReg i v).readReg i = v := by
  simp [State.readReg, State.writeReg]

/-- Writing a register leaves every other one. -/
theorem State.readReg_writeReg_ne {i j : RegIx} (v : Word) (h : j ≠ i) :
    (s.writeReg i v).readReg j = s.readReg j := by
  have h' : i.val ≠ j.val := fun e => h (Fin.ext e.symm)
  simp [State.readReg, State.writeReg, Vector.getElem_set_ne, h']

/-- A register's value depends on the register file alone. -/
theorem State.readReg_congr {s t : State} (h : t.regs = s.regs) (i : RegIx) :
    t.readReg i = s.readReg i := by
  simp [State.readReg, h]

/-- A cell's value depends on memory alone. -/
theorem State.readMem_congr {s t : State} (h : t.mem = s.mem) (i : Nat) :
    t.readMem i = s.readMem i := by
  simp [State.readMem, h]

end Sys2Proof.Machine
end

