-- ==== Sys2Proof/Laws/Operands.lean ====
section
/-! SUPPORT. One lemma per shared operation of the meanings, saying once everything it can answer. -/

namespace Sys2Proof.Machine

variable {s t : State}

/-- Taking a fault always goes on, to the faulted state (60_exceptions.md R134). -/
@[simp] theorem raiseFault_eq (cause : FaultCause) (s : State) :
    raiseFault cause s = .next (s.faultedBy cause) := rfl

/-- A state whose run state is faulted by the model's own operation has the record of R131. -/
@[simp] theorem State.faultedBy_run_eq (cause : FaultCause) (s : State) (f : FaultRecord) :
    (s.faultedBy cause).run = .faulted f ↔
      f = { cause := cause, fpc := s.pc, opword := s.readMem s.pc.toNat } := by
  simp [eq_comm]

/-- A source operand has no fault, in the words of `operandFault`. -/
theorem operandFault_src_eq_none (o : Operand) :
    operandFault .src o = none ↔ o.isSource = true := by
  cases o <;> simp [operandFault, Operand.isSource]

/-- A destination check that passes. -/
@[simp] theorem withDst_register (r : RegIx) (s : State) (k : RegIx → Result) :
    withDst (.register r) s k = k r := rfl

/-- A source check that passes. -/
theorem withSrc_source {o : Operand} (h : o.isSource = true) (s : State)
    (k : Word → Result) : withSrc o s k = k (resolve o s) := by
  simp [withSrc, (operandFault_src_eq_none o).2 h]

/-- A destination check that fails raises the fault of 40_cycle.md R95. -/
theorem withDst_fault {o : Operand} {cause : FaultCause} (h : operandFault .dst o = some cause)
    (s : State) (k : RegIx → Result) : withDst o s k = .next (s.faultedBy cause) := by
  cases o <;> simp_all [operandFault, withDst]

/-- A source check that fails raises the fault of 40_cycle.md R95. -/
theorem withSrc_fault {o : Operand} {cause : FaultCause} (h : operandFault .src o = some cause)
    (s : State) (k : Word → Result) : withSrc o s k = .next (s.faultedBy cause) := by
  simp [withSrc, h]

/-- All that a destination check can do: raise its fault, or go on with the register. -/
theorem withDst_cases (o : Operand) (s : State) (k : RegIx → Result) :
    (∃ cause, operandFault .dst o = some cause ∧ withDst o s k = .next (s.faultedBy cause)) ∨
      ∃ r, o = .register r ∧ withDst o s k = k r := by
  cases o with
  | literal v => exact .inl ⟨_, rfl, rfl⟩
  | register r => exact .inr ⟨r, rfl, rfl⟩
  | invalid w => exact .inl ⟨_, rfl, rfl⟩

/-- All that a source check can do: raise its fault, or go on with the resolved Word. -/
theorem withSrc_cases (o : Operand) (s : State) (k : Word → Result) :
    (∃ cause, operandFault .src o = some cause ∧ withSrc o s k = .next (s.faultedBy cause)) ∨
      (o.isSource = true ∧ withSrc o s k = k (resolve o s)) := by
  cases h : operandFault .src o with
  | some cause => exact .inl ⟨cause, rfl, withSrc_fault h s k⟩
  | none =>
    have hs := (operandFault_src_eq_none o).1 h
    exact .inr ⟨hs, withSrc_source hs s k⟩

/-- All that a one-source instruction with a register result can do. -/
theorem unaryOp_cases (f : Word → Word) (a b : Operand) (s : State) :
    (∃ cause, unaryOp f a b s = .next (s.faultedBy cause)) ∨
      ∃ d, a = .register d ∧ b.isSource = true ∧
        unaryOp f a b s = .next ((s.writeReg d (f (resolve b s))).advance 3) := by
  unfold unaryOp
  rcases withDst_cases a s fun d => withSrc b s fun vb => .next ((s.writeReg d (f vb)).advance 3)
    with ⟨c, -, h⟩ | ⟨d, ha, h⟩
  · exact .inl ⟨c, h⟩
  · rcases withSrc_cases b s fun vb => .next ((s.writeReg d (f vb)).advance 3)
      with ⟨c, -, h'⟩ | ⟨hb, h'⟩
    · exact .inl ⟨c, h.trans h'⟩
    · exact .inr ⟨d, ha, hb, h.trans h'⟩

/-- All that a two-source instruction with a register result can do. -/
theorem binaryOp_cases (f : Word → Word → Word) (a b c : Operand) (s : State) :
    (∃ cause, binaryOp f a b c s = .next (s.faultedBy cause)) ∨
      ∃ d, a = .register d ∧ b.isSource = true ∧ c.isSource = true ∧
        binaryOp f a b c s =
          .next ((s.writeReg d (f (resolve b s) (resolve c s))).advance 4) := by
  unfold binaryOp
  rcases withDst_cases a s fun d => withSrc b s fun vb => withSrc c s fun vc =>
    .next ((s.writeReg d (f vb vc)).advance 4) with ⟨e, -, h⟩ | ⟨d, ha, h⟩
  · exact .inl ⟨e, h⟩
  · rcases withSrc_cases b s fun vb => withSrc c s fun vc =>
      .next ((s.writeReg d (f vb vc)).advance 4) with ⟨e, -, h'⟩ | ⟨hb, h'⟩
    · exact .inl ⟨e, h.trans h'⟩
    · rcases withSrc_cases c s fun vc => .next ((s.writeReg d (f (resolve b s) vc)).advance 4)
        with ⟨e, -, h''⟩ | ⟨hc, h''⟩
      · exact .inl ⟨e, (h.trans h').trans h''⟩
      · exact .inr ⟨d, ha, hb, hc, (h.trans h').trans h''⟩

/-- A one-source instruction completes on a register destination and an accepted source. -/
theorem unaryOp_completes (f : Word → Word) (d : RegIx) {b : Operand}
    (hb : b.isSource = true) (s : State) :
    unaryOp f (.register d) b s = .next ((s.writeReg d (f (resolve b s))).advance 3) := by
  simp [unaryOp, withSrc_source hb]

/-- A two-source instruction completes on a register destination and accepted sources. -/
theorem binaryOp_completes (f : Word → Word → Word) (d : RegIx) {b c : Operand}
    (hb : b.isSource = true) (hc : c.isSource = true) (s : State) :
    binaryOp f (.register d) b c s =
      .next ((s.writeReg d (f (resolve b s) (resolve c s))).advance 4) := by
  simp [binaryOp, withSrc_source hb, withSrc_source hc]

/-- All that the completing step of `in` can do (48_io.md R129). -/
theorem completeInput_cases (i : RegIx) (s : State) :
    (s.answers = [] ∧ completeInput i s = .next s) ∨
      (∃ v rest, s.answers = .value v :: rest ∧ completeInput i s =
        .next (((((s.setAnswers rest).emit (.answered (.value v))).writeReg i v).advance 2).setRun
          .running)) ∨
      ∃ rest, s.answers = .eof :: rest ∧ completeInput i s =
        .next (((s.setAnswers rest).emit (.answered .eof)).faultedBy .inputExhausted) := by
  unfold completeInput
  rcases s.answers with _ | ⟨_ | _, rest⟩ <;> simp

end Sys2Proof.Machine
end

