-- ==== Sys2Proof/Laws/Exec.lean ====
section
/-! SUPPORT. What an instruction can do, said once: it always goes on, either into a fault that changes
only the run state, or with the effect of its rule. -/

namespace Sys2Proof.Machine

/-- The effect of each instruction when it raises no fault: the state it leaves and the checks that
passed (41_halt_noop.md to 48_io.md). -/
def Effect (i : Instr) (s t : State) : Prop :=
  match i with
  | .halt => t = s.haltedAtEnd
  | .set a b => ∃ d, a = .register d ∧ b.isSource = true ∧
      t = (s.writeReg d (resolve b s)).advance 3
  | .push a => a.isSource = true ∧ s.stackFull = false ∧
      t = (s.push ((resolve a s).setWidth 16)).advance 2
  | .pop a => ∃ d v rest, a = .register d ∧ s.stack = v :: rest ∧ v.toNat ≤ 32767 ∧
      t = ((s.setStack rest).writeReg d (v.setWidth 15)).advance 2
  | .eq a b c => ∃ d, a = .register d ∧ b.isSource = true ∧ c.isSource = true ∧
      t = (s.writeReg d (eqWord (resolve b s) (resolve c s))).advance 4
  | .gt a b c => ∃ d, a = .register d ∧ b.isSource = true ∧ c.isSource = true ∧
      t = (s.writeReg d (gtWord (resolve b s) (resolve c s))).advance 4
  | .jmp a => a.isSource = true ∧ t = s.setPc ((resolve a s).setWidth 16)
  | .jt a b => a.isSource = true ∧ b.isSource = true ∧
      t = if wordTrue (resolve a s) then s.setPc ((resolve b s).setWidth 16) else s.advance 3
  | .jf a b => a.isSource = true ∧ b.isSource = true ∧
      t = if wordTrue (resolve a s) then s.advance 3 else s.setPc ((resolve b s).setWidth 16)
  | .add a b c => ∃ d, a = .register d ∧ b.isSource = true ∧ c.isSource = true ∧
      t = (s.writeReg d (addWord (resolve b s) (resolve c s))).advance 4
  | .mult a b c => ∃ d, a = .register d ∧ b.isSource = true ∧ c.isSource = true ∧
      t = (s.writeReg d (multWord (resolve b s) (resolve c s))).advance 4
  | .mod a b c => ∃ d, a = .register d ∧ b.isSource = true ∧ c.isSource = true ∧
      resolve c s ≠ 0 ∧ t = (s.writeReg d (modWord (resolve b s) (resolve c s))).advance 4
  | .and a b c => ∃ d, a = .register d ∧ b.isSource = true ∧ c.isSource = true ∧
      t = (s.writeReg d (andWord (resolve b s) (resolve c s))).advance 4
  | .or a b c => ∃ d, a = .register d ∧ b.isSource = true ∧ c.isSource = true ∧
      t = (s.writeReg d (orWord (resolve b s) (resolve c s))).advance 4
  | .not a b => ∃ d, a = .register d ∧ b.isSource = true ∧
      t = (s.writeReg d (notWord (resolve b s))).advance 3
  | .rmem a b => ∃ d, a = .register d ∧ b.isSource = true ∧
      (s.readMem (resolve b s).toNat).toNat ≤ 32767 ∧
      t = (s.writeReg d ((s.readMem (resolve b s).toNat).setWidth 15)).advance 3
  | .wmem a b => a.isSource = true ∧ b.isSource = true ∧
      t = (s.writeMem (wmemAddress a s) ((resolve b s).setWidth 16)).advance 3
  | .call a => a.isSource = true ∧ s.stackFull = false ∧
      t = (s.push (s.pc + 2)).setPc ((resolve a s).setWidth 16)
  | .ret => (s.stack = [] ∧ t = s.haltedAtEnd) ∨
      ∃ v rest, s.stack = v :: rest ∧ t = (s.setStack rest).setPc v
  | .out a => a.isSource = true ∧ t = (s.emit (.emitOut (resolve a s))).advance 2
  | .input a => ∃ d, a = .register d ∧ t = (s.setRun (.waitInput d)).emit .awaitIn
  | .noop => t = s.advance 1

/-- A one-source instruction with a register result, in the words of `Effect`. -/
theorem unaryOp_effect (f : Word → Word) (a b : Operand) (s : State) :
    ∃ t, unaryOp f a b s = .next t ∧ ((∃ cause, t = s.faultedBy cause) ∨
      ∃ d, a = .register d ∧ b.isSource = true ∧
        t = (s.writeReg d (f (resolve b s))).advance 3) := by
  rcases unaryOp_cases f a b s with ⟨cause, h⟩ | ⟨d, ha, hb, h⟩
  · exact ⟨_, h, .inl ⟨cause, rfl⟩⟩
  · exact ⟨_, h, .inr ⟨d, ha, hb, rfl⟩⟩

/-- A two-source instruction with a register result, in the words of `Effect`. -/
theorem binaryOp_effect (f : Word → Word → Word) (a b c : Operand) (s : State) :
    ∃ t, binaryOp f a b c s = .next t ∧ ((∃ cause, t = s.faultedBy cause) ∨
      ∃ d, a = .register d ∧ b.isSource = true ∧ c.isSource = true ∧
        t = (s.writeReg d (f (resolve b s) (resolve c s))).advance 4) := by
  rcases binaryOp_cases f a b c s with ⟨cause, h⟩ | ⟨d, ha, hb, hc, h⟩
  · exact ⟨_, h, .inl ⟨cause, rfl⟩⟩
  · exact ⟨_, h, .inr ⟨d, ha, hb, hc, rfl⟩⟩

/-- A source check in front of a meaning: a fault, or what the meaning does with the resolved Word. -/
theorem withSrc_effect {P : State → Prop} (o : Operand) (s : State) (k : Word → Result)
    (hk : o.isSource = true → ∃ t, k (resolve o s) = .next t ∧
      ((∃ cause, t = s.faultedBy cause) ∨ P t)) :
    ∃ t, withSrc o s k = .next t ∧ ((∃ cause, t = s.faultedBy cause) ∨ P t) := by
  rcases withSrc_cases o s k with ⟨cause, -, h⟩ | ⟨ho, h⟩
  · exact ⟨_, h, .inl ⟨cause, rfl⟩⟩
  · obtain ⟨t, ht, hP⟩ := hk ho
    exact ⟨t, h.trans ht, hP⟩

/-- A destination check in front of a meaning: a fault, or what the meaning does with the register. -/
theorem withDst_effect {P : State → Prop} (o : Operand) (s : State) (k : RegIx → Result)
    (hk : ∀ d, o = .register d → ∃ t, k d = .next t ∧
      ((∃ cause, t = s.faultedBy cause) ∨ P t)) :
    ∃ t, withDst o s k = .next t ∧ ((∃ cause, t = s.faultedBy cause) ∨ P t) := by
  rcases withDst_cases o s k with ⟨cause, -, h⟩ | ⟨d, ho, h⟩
  · exact ⟨_, h, .inl ⟨cause, rfl⟩⟩
  · obtain ⟨t, ht, hP⟩ := hk d ho
    exact ⟨t, h.trans ht, hP⟩

/-- Every instruction answers a next state: a fault that changes only the run state, or its effect. -/
theorem exec_effect (i : Instr) (s : State) :
    ∃ t, exec i s = .next t ∧ ((∃ cause, t = s.faultedBy cause) ∨ Effect i s t) := by
  cases i with
  | halt => exact ⟨_, rfl, .inr rfl⟩
  | set a b => exact unaryOp_effect id a b s
  | push a =>
    unfold exec execPush
    refine withSrc_effect a s _ fun ha => ?_
    cases hf : s.stackFull with
    | true => exact ⟨_, rfl, .inl ⟨.stackOverflow, rfl⟩⟩
    | false => exact ⟨_, rfl, .inr ⟨ha, hf, rfl⟩⟩
  | pop a =>
    unfold exec execPop
    refine withDst_effect a s _ fun d ha => ?_
    rcases hs : s.stack with _ | ⟨v, rest⟩
    · exact ⟨_, rfl, .inl ⟨.stackUnderflow, rfl⟩⟩
    · by_cases hv : 32767 < v.toNat
      · exact ⟨_, if_pos hv, .inl ⟨.popValueNotWord, rfl⟩⟩
      · exact ⟨_, if_neg hv, .inr ⟨d, v, rest, ha, hs, Nat.not_lt.1 hv, rfl⟩⟩
  | eq a b c => exact binaryOp_effect eqWord a b c s
  | gt a b c => exact binaryOp_effect gtWord a b c s
  | jmp a =>
    unfold exec execJmp
    exact withSrc_effect a s _ fun ha => ⟨_, rfl, .inr ⟨ha, rfl⟩⟩
  | jt a b =>
    unfold exec execJt
    exact withSrc_effect a s _ fun ha => withSrc_effect b s _ fun hb =>
      ⟨_, rfl, .inr ⟨ha, hb, rfl⟩⟩
  | jf a b =>
    unfold exec execJf
    exact withSrc_effect a s _ fun ha => withSrc_effect b s _ fun hb =>
      ⟨_, rfl, .inr ⟨ha, hb, rfl⟩⟩
  | add a b c => exact binaryOp_effect addWord a b c s
  | mult a b c => exact binaryOp_effect multWord a b c s
  | mod a b c =>
    unfold exec execMod
    refine withDst_effect a s _ fun d ha => withSrc_effect b s _ fun hb =>
      withSrc_effect c s _ fun hc => ?_
    by_cases h0 : resolve c s = 0
    · exact ⟨_, if_pos h0, .inl ⟨.divideByZero, rfl⟩⟩
    · exact ⟨_, if_neg h0, .inr ⟨d, ha, hb, hc, h0, rfl⟩⟩
  | and a b c => exact binaryOp_effect andWord a b c s
  | or a b c => exact binaryOp_effect orWord a b c s
  | not a b => exact unaryOp_effect notWord a b s
  | rmem a b =>
    unfold exec execRmem
    refine withDst_effect a s _ fun d ha => withSrc_effect b s _ fun hb => ?_
    by_cases hv : 32767 < (s.readMem (resolve b s).toNat).toNat
    · exact ⟨_, if_pos hv, .inl ⟨.memoryWordNotValue, rfl⟩⟩
    · exact ⟨_, if_neg hv, .inr ⟨d, ha, hb, Nat.not_lt.1 hv, rfl⟩⟩
  | wmem a b =>
    unfold exec execWmem
    exact withSrc_effect a s _ fun ha => withSrc_effect b s _ fun hb =>
      ⟨_, rfl, .inr ⟨ha, hb, rfl⟩⟩
  | call a =>
    unfold exec execCall
    refine withSrc_effect a s _ fun ha => ?_
    cases hf : s.stackFull with
    | true => exact ⟨_, rfl, .inl ⟨.stackOverflow, rfl⟩⟩
    | false => exact ⟨_, rfl, .inr ⟨ha, hf, rfl⟩⟩
  | ret =>
    rcases hs : s.stack with _ | ⟨v, rest⟩
    · exact ⟨s.haltedAtEnd, by simp only [exec, execRet, hs], .inr (.inl ⟨hs, rfl⟩)⟩
    · exact ⟨(s.setStack rest).setPc v, by simp only [exec, execRet, hs],
        .inr (.inr ⟨v, rest, hs, rfl⟩)⟩
  | out a =>
    unfold exec execOut
    exact withSrc_effect a s _ fun ha => ⟨_, rfl, .inr ⟨ha, rfl⟩⟩
  | input a =>
    unfold exec execInput
    exact withDst_effect a s _ fun d ha => ⟨_, rfl, .inr ⟨d, ha, rfl⟩⟩
  | noop => exact ⟨_, rfl, .inr rfl⟩

/-- The same, from a known next state. -/
theorem exec_next {i : Instr} {s t : State} (h : exec i s = .next t) :
    (∃ cause, t = s.faultedBy cause) ∨ Effect i s t := by
  obtain ⟨u, hu, hc⟩ := exec_effect i s
  rw [h] at hu
  cases hu
  exact hc

end Sys2Proof.Machine
end

