-- ==== Sys2Proof/Laws/Memory.lean ====
section
/-! SUPPORT. The laws of memory: a read after a write, and that every write keeps the canonical form. -/

namespace Sys2Proof.Machine

/-! Bytes. -/

/-- Without its entry an address reads as an unlisted one. -/
theorem readByte_filter_self (m : List Host.Cell) (a : Nat) :
    readByte (m.filter fun c => c.1 != a) a = emptyByte := by
  induction m with
  | nil => rfl
  | cons c rest ih =>
    obtain ⟨k, v⟩ := c
    by_cases h : k = a <;> simp [h, ih, readByte]

/-- Dropping one address leaves every other one. -/
theorem readByte_filter_ne (m : List Host.Cell) {a b : Nat} (h : b ≠ a) :
    readByte (m.filter fun c => c.1 != a) b = readByte m b := by
  induction m with
  | nil => rfl
  | cons c rest ih =>
    obtain ⟨k, v⟩ := c
    by_cases hk : k = a
    · simp [hk, ih, readByte, h.symm]
    · simp [hk, ih, readByte]

/-- An inserted entry is read before any later one of its address. -/
theorem readByte_insertByte (m : List Host.Cell) (a : Nat) (v : Byte) (b : Nat)
    (hm : readByte m a = emptyByte ∧ ∀ c ∈ m, c.1 ≠ a) :
    readByte (insertByte a v m) b = if b = a then v else readByte m b := by
  obtain ⟨-, hm⟩ := hm
  induction m with
  | nil => simp [insertByte, readByte, eq_comm]
  | cons c rest ih =>
    obtain ⟨k, w⟩ := c
    have hk : k ≠ a := hm (k, w) (by simp)
    have ih' := ih fun c hc => hm c (by simp [hc])
    by_cases hlt : a < k
    · simp [insertByte, hlt, readByte, eq_comm]
    · by_cases hb : b = a
      · subst hb; simp [insertByte, hlt, readByte, hk, ih']
      · simp [insertByte, hlt, readByte, ih', hb]

/-- A byte read after a byte write: the value written at that address, the old value elsewhere. -/
theorem readByte_writeByte (m : List Host.Cell) (a : Nat) (v : Byte) (b : Nat) :
    readByte (writeByte m a v) b = if b = a then v else readByte m b := by
  unfold writeByte
  by_cases hv : v = emptyByte
  · by_cases hb : b = a
    · subst hb; simp [hv, readByte_filter_self]
    · simp [hv, hb, readByte_filter_ne m hb]
  · simp only [hv, if_false]
    rw [readByte_insertByte _ _ _ _ ⟨readByte_filter_self m a, by simp⟩]
    by_cases hb : b = a
    · simp [hb]
    · simp [hb, readByte_filter_ne m hb]

/-! Words and bytes. -/

/-- A word is its low byte and its high byte. -/
@[simp] theorem wordOfBytes_low_high (w : Word16) :
    wordOfBytes (lowByte w) (highByte w) = w := by
  apply BitVec.eq_of_toNat_eq
  have h := w.isLt
  simp only [wordOfBytes, lowByte, highByte, BitVec.toNat_append, BitVec.toNat_setWidth,
    BitVec.toNat_ushiftRight, Nat.shiftLeft_eq, Nat.shiftRight_eq_div_pow]
  rw [Nat.mul_comm, ← Nat.two_pow_add_eq_or_of_lt (Nat.mod_lt _ (by decide))]
  omega

/-- The value of two bytes: low + 256 * high (20_memory.md R55). -/
theorem wordOfBytes_toNat (lo hi : Byte) :
    (wordOfBytes lo hi).toNat = lo.toNat + 256 * hi.toNat := by
  rw [wordOfBytes, BitVec.toNat_append, Nat.shiftLeft_eq, Nat.mul_comm,
    ← Nat.two_pow_add_eq_or_of_lt lo.isLt]
  omega

/-! Cells. -/

/-- In an empty list every cell reads 0 (70_reset_and_hazards.md R149). -/
@[simp] theorem readCell_nil (i : Nat) : readCell [] i = 0 := by
  simp only [readCell, readByte]
  decide

/-- A cell read after a cell write: the word written at that index, the old word elsewhere. -/
theorem readCell_writeCell (m : List Host.Cell) (i : Nat) (v : Word16) (j : Nat) :
    readCell (writeCell m i v) j = if j = i then v else readCell m j := by
  simp only [readCell, writeCell, readByte_writeByte]
  by_cases h : j = i
  · subst h
    rw [if_neg (by omega), if_pos rfl, if_pos rfl, if_pos rfl, wordOfBytes_low_high]
  · rw [if_neg (by omega), if_neg (by omega), if_neg (by omega), if_neg (by omega), if_neg h]

/-- Writing a cell leaves every byte that is not one of its two. -/
theorem readByte_writeCell_ne (m : List Host.Cell) (i : Nat) (v : Word16) {a : Nat}
    (h : a / 2 ≠ i) : readByte (writeCell m i v) a = readByte m a := by
  simp only [writeCell, readByte_writeByte]
  rw [if_neg (by omega), if_neg (by omega)]

/-- Cells written in order: index i + k holds word k, every other index its old word. -/
theorem readCell_writeCells (ws : List Word16) (m : List Host.Cell) (i j : Nat) :
    readCell (writeCells m i ws) j =
      if h : i ≤ j ∧ j - i < ws.length then ws[j - i]'h.2 else readCell m j := by
  induction ws generalizing m i with
  | nil => simp [writeCells]
  | cons w ws ih =>
    simp only [writeCells, ih, List.length_cons]
    by_cases hj : j = i
    · subst hj; simp [readCell_writeCell]
    · by_cases h : i + 1 ≤ j ∧ j - (i + 1) < ws.length
      · have h2 : i ≤ j ∧ j - i < ws.length + 1 := by omega
        have hk : j - i = (j - (i + 1)) + 1 := by omega
        simp only [h, h2, and_self, dite_true]
        simp [hk]
      · have h2 : ¬ (i ≤ j ∧ j - i < ws.length + 1) := by omega
        simp only [h, h2, dite_false, readCell_writeCell, hj, if_false]

/-! The canonical form. -/

/-- The canonical form of a list with a first entry. -/
theorem Memory.wf_cons (k : Nat) (v : Byte) (rest : List Host.Cell) :
    Memory.wf ((k, v) :: rest) = true ↔
      (∀ c ∈ rest, k < c.1) ∧ k < 65536 ∧ v ≠ emptyByte ∧ Memory.wf rest = true := by
  simp [Memory.wf, and_assoc]

/-- Dropping entries keeps the canonical form. -/
theorem Memory.wf_filter (p : Host.Cell → Bool) {m : List Host.Cell} (h : Memory.wf m = true) :
    Memory.wf (m.filter p) = true := by
  induction m with
  | nil => rfl
  | cons c rest ih =>
    obtain ⟨k, v⟩ := c
    rw [Memory.wf_cons] at h
    obtain ⟨h1, h2, h3, h4⟩ := h
    rw [List.filter_cons]
    split
    · rw [Memory.wf_cons]
      exact ⟨fun c hc => h1 c (List.mem_filter.1 hc).1, h2, h3, ih h4⟩
    · exact ih h4

/-- An entry of the inserted list is the new one or an old one. -/
theorem mem_insertByte {a : Nat} {v : Byte} {m : List Host.Cell} {c : Host.Cell}
    (h : c ∈ insertByte a v m) : c = (a, v) ∨ c ∈ m := by
  induction m with
  | nil => simpa [insertByte] using h
  | cons d rest ih =>
    obtain ⟨k, w⟩ := d
    simp only [insertByte] at h
    split at h
    · simpa using h
    · rcases List.mem_cons.1 h with h | h
      · simp [h]
      · rcases ih h with h | h <;> simp [h]

/-- Inserting a new entry for an address of the space keeps the canonical form. -/
theorem Memory.wf_insertByte {m : List Host.Cell} {a : Nat} {v : Byte} (h : Memory.wf m = true)
    (ha : a < 65536) (hv : v ≠ emptyByte) (hn : ∀ c ∈ m, c.1 ≠ a) :
    Memory.wf (insertByte a v m) = true := by
  induction m with
  | nil => simp [insertByte, ha, hv, Memory.wf]
  | cons c rest ih =>
    obtain ⟨k, w⟩ := c
    have h0 := h
    rw [Memory.wf_cons] at h
    obtain ⟨h1, h2, h3, h4⟩ := h
    have hk : k ≠ a := hn (k, w) (by simp)
    simp only [insertByte]
    split
    · rename_i hlt
      rw [Memory.wf_cons]
      refine ⟨fun c hc => ?_, ha, hv, h0⟩
      rcases List.mem_cons.1 hc with rfl | hc
      · exact hlt
      · exact lt_trans hlt (h1 c hc)
    · rename_i hge
      rw [Memory.wf_cons]
      refine ⟨fun c hc => ?_, h2, h3, ih h4 fun c hc => hn c (by simp [hc])⟩
      rcases mem_insertByte hc with rfl | hc
      · change k < a; omega
      · exact h1 c hc

/-- A byte write keeps the canonical form. -/
theorem Memory.wf_writeByte {m : List Host.Cell} (h : Memory.wf m = true) {a : Nat}
    (ha : a < 65536) (v : Byte) : Memory.wf (writeByte m a v) = true := by
  unfold writeByte
  by_cases hv : v = emptyByte
  · simpa [hv] using Memory.wf_filter _ h
  · simpa [hv] using Memory.wf_insertByte (Memory.wf_filter _ h) ha hv (by simp)

/-- A cell write keeps the canonical form. -/
theorem Memory.wf_writeCell {m : List Host.Cell} (h : Memory.wf m = true) {i : Nat}
    (hi : i < 32768) (v : Word16) : Memory.wf (writeCell m i v) = true :=
  Memory.wf_writeByte (Memory.wf_writeByte h (by omega) _) (by omega) _

/-- Writing cells in order keeps the canonical form, if they all lie in memory. -/
theorem Memory.wf_writeCells (ws : List Word16) {m : List Host.Cell} (h : Memory.wf m = true)
    {i : Nat} (hi : i + ws.length ≤ 32768) : Memory.wf (writeCells m i ws) = true := by
  induction ws generalizing m i with
  | nil => exact h
  | cons w ws ih =>
    simp only [List.length_cons] at hi
    exact ih (Memory.wf_writeCell h (by omega) w) (by omega)

/-- Memory at reset is canonical. -/
theorem Memory.wf_reset : Memory.wf State.reset.mem = true := rfl

end Sys2Proof.Machine
end

