-- ==== Sys2Proof/Laws/Step.lean ====
section
/-! SUPPORT. What a step can do, case by case (40_cycle.md R90 to R98). -/

namespace Sys2Proof.Machine

variable {s : State}

/-- How many words the decoder is given: four, or as many as lie between the pc and the end of
memory. -/
theorem fetchWords_length (s : State) :
    (fetchWords s).length = min 4 (32768 - s.pc.toNat) := by
  simp only [fetchWords, List.length_map, List.range, List.range.loop]
  simp only [List.filter_cons, List.filter_nil, decide_eq_true_eq]
  split_ifs <;> simp <;> omega

/-- With the pc inside memory the decoder is given the opcode word first. -/
theorem fetchWords_cons (h : s.pc.toNat < 32768) :
    ∃ ws, fetchWords s = s.readMem s.pc.toNat :: ws := by
  simp [fetchWords, List.range, List.range.loop, List.filter_cons, h]

/-- Word k that the decoder is given is the cell at pc + k. -/
theorem fetchWords_getElem (s : State) (k : Nat) (h : k < (fetchWords s).length) :
    (fetchWords s)[k] = s.readMem (s.pc.toNat + k) := by
  have hl := fetchWords_length s
  have hpre : (List.range 4).filter (fun k => decide (s.pc.toNat + k < 32768)) =
      List.range (min 4 (32768 - s.pc.toNat)) := by
    have h4 : ∀ n, n ≤ 4 → (∀ k < 4, s.pc.toNat + k < 32768 ↔ k < n) →
        (List.range 4).filter (fun k => decide (s.pc.toNat + k < 32768)) = List.range n := by
      intro n hn hk
      have e : (List.range 4).filter (fun k => decide (s.pc.toNat + k < 32768)) =
          (List.range 4).filter (fun k => decide (k < n)) :=
        List.filter_congr fun k hk' => by simp [hk k (List.mem_range.1 hk')]
      rw [e]
      interval_cases n <;> rfl
    exact h4 _ (by omega) fun k hk => by omega
  simp only [fetchWords, hpre, List.getElem_map, List.getElem_range]

/-- No step while reset is held (70_reset_and_hazards.md R145). -/
theorem step_resetHeld (h : s.resetLine = true) : step s = .next s := by
  simp [step, cycle, h]

/-- The step in each run state, with reset released (40_cycle.md R90). -/
theorem step_of_run (h : s.resetLine = false) :
    step s = match s.run with
      | .running => stepRunning s
      | .waitInput i => stepWaiting i s
      | .halted => .next s
      | .faulted _ => .next s := by
  cases hr : s.run <;> simp [step, cycle, h, hr]

/-- All that a step in `Running` can do with the pc at most 32768: halt at the end of memory, execute
the decoded instruction, meet an unknown opcode word, or lack operand words (40_cycle.md R91 to
R98). -/
theorem stepRunning_cases (h : s.pc.toNat ≤ 32768) :
    (s.pc = 32768 ∧ stepRunning s = .next (s.setRun .halted)) ∨
      s.pc.toNat < 32768 ∧
        ((∃ i rest, decode (fetchWords s) = .ok (i, rest) ∧ stepRunning s = exec i s) ∨
          (21 < (s.readMem s.pc.toNat).toNat ∧
            stepRunning s = unknownOpcode (s.readMem s.pc.toNat) s) ∨
          (∃ f, opcodeForm (s.readMem s.pc.toNat).toNat = some f ∧
            32768 ≤ s.pc.toNat + f.count ∧
            stepRunning s = .next (s.faultedBy .operandFetchOutOfRange))) := by
  by_cases hp : s.pc = 32768
  · exact .inl ⟨hp, by simp [stepRunning, hp]⟩
  · have hlt : s.pc.toNat < 32768 := by
      have : s.pc.toNat ≠ 32768 := fun e => hp (BitVec.eq_of_toNat_eq e)
      omega
    refine .inr ⟨hlt, ?_⟩
    obtain ⟨ws, hws⟩ := fetchWords_cons hlt
    have hlen := fetchWords_length s
    rw [hws, List.length_cons] at hlen
    cases hf : opcodeForm (s.readMem s.pc.toNat).toNat with
    | none =>
      have hgt := (opcodeForm_eq_none_iff _).1 hf
      refine .inr (.inl ⟨hgt, ?_⟩)
      rw [stepRunning, if_neg hp, hws, decode_unknown hgt]
    | some f =>
      cases ht : f.take ws with
      | none =>
        have hc := (Form.take_eq_none_iff f ws).1 ht
        have hcount : f.count ≤ 3 := by cases f <;> simp [Form.count]
        refine .inr (.inr ⟨f, rfl, by omega, ?_⟩)
        rw [stepRunning, if_neg hp, hws]
        simp only [decode, hf, ht, raiseFault]
      | some r =>
        have hd : decode (fetchWords s) = .ok (r.1, r.2) := by simp [hws, decode, hf, ht]
        exact .inl ⟨r.1, r.2, hd, by rw [stepRunning, if_neg hp, hd]⟩

end Sys2Proof.Machine
end

