-- ==== Sys2Proof/Tests/Slice0.lean ====
section
/-! SUPPORT. Tests. The expected values come from spec/95_test_vectors.md (the vector is named in each
comment) and from the tables of spec/30_encoding.md. -/

namespace Sys2Proof.Tests

open Sys2Proof.Machine

/-- The reset state with words in memory from index 0. -/
def loaded (ws : List Word16) : State := { State.reset with mem := writeCells [] 0 ws }

/-- The state a step or a meaning goes on to, if it does. -/
def nextOf : Result → Option State
  | .next t => some t
  | .fault _ => none
  | .refused _ => none

/-- One step from words in memory, as the registers, pc, stack and run state it leaves. -/
def after (s : State) : Option (List Word × Nat × List Word16 × RunState) :=
  (nextOf (step s)).map fun t => (t.regs.toList, t.pc.toNat, t.stack, t.run)

/-! Decoding: for every constructor a word list written out from 30_encoding.md R72, R74 and R77. -/

theorem test_decode_halt : decode [0] = .ok (.halt, []) := by rfl
theorem test_decode_set :
    decode [1, 32775, 32767] = .ok (.set (.register 7) (.literal 32767), []) := by rfl
theorem test_decode_push : decode [2, 300] = .ok (.push (.literal 300), []) := by rfl
theorem test_decode_pop : decode [3, 32769] = .ok (.pop (.register 1), []) := by rfl
theorem test_decode_eq :
    decode [4, 32768, 5, 6] = .ok (.eq (.register 0) (.literal 5) (.literal 6), []) := by rfl
theorem test_decode_gt :
    decode [5, 32775, 32774, 32773] =
      .ok (.gt (.register 7) (.register 6) (.register 5), []) := by rfl
theorem test_decode_jmp : decode [6, 100] = .ok (.jmp (.literal 100), []) := by rfl
theorem test_decode_jt : decode [7, 0, 6] = .ok (.jt (.literal 0) (.literal 6), []) := by rfl
theorem test_decode_jf : decode [8, 32768, 20] = .ok (.jf (.register 0) (.literal 20), []) := by rfl
theorem test_decode_add :
    decode [9, 32768, 4, 5] = .ok (.add (.register 0) (.literal 4) (.literal 5), []) := by rfl
theorem test_decode_mult :
    decode [10, 32770, 300, 200] =
      .ok (.mult (.register 2) (.literal 300) (.literal 200), []) := by rfl
theorem test_decode_mod :
    decode [11, 32771, 27232, 1000] =
      .ok (.mod (.register 3) (.literal 27232) (.literal 1000), []) := by rfl
theorem test_decode_and :
    decode [12, 32773, 32535, 255] =
      .ok (.and (.register 5) (.literal 32535) (.literal 255), []) := by rfl
theorem test_decode_or :
    decode [13, 32774, 23, 32] = .ok (.or (.register 6) (.literal 23) (.literal 32), []) := by rfl
theorem test_decode_not : decode [14, 32772, 232] = .ok (.not (.register 4) (.literal 232), []) := by
  rfl
theorem test_decode_rmem : decode [15, 32768, 20] = .ok (.rmem (.register 0) (.literal 20), []) := by
  rfl
theorem test_decode_wmem :
    decode [16, 32769, 32770] = .ok (.wmem (.register 1) (.register 2), []) := by rfl
theorem test_decode_call : decode [17, 5] = .ok (.call (.literal 5), []) := by rfl
theorem test_decode_ret : decode [18] = .ok (.ret, []) := by rfl
theorem test_decode_out : decode [19, 32768] = .ok (.out (.register 0), []) := by rfl
theorem test_decode_in : decode [20, 32768] = .ok (.input (.register 0), []) := by rfl
theorem test_decode_noop : decode [21] = .ok (.noop, []) := by rfl

/-- C-2 and C-4: 22 and a register-form word are unknown opcodes. -/
theorem test_decode_unknown :
    decode [22] = .error (.unknownOpcode 22) ∧ decode [32768] = .error (.unknownOpcode 32768) := by
  decide

/-- The image bytes of L1-6, little-endian, decode to its first instruction. -/
theorem test_decode_image_bytes :
    decodeBytes [0x09, 0x00, 0x00, 0x80, 0x04, 0x00, 0x05, 0x00, 0x13, 0x00, 0x00, 0x80] =
      .ok (.add (.register 0) (.literal 4) (.literal 5), [19, 32768]) := by rfl

/-- A row of the opcode table: the operand words are 0. -/
theorem test_decode_table_word :
    decodeTableWord 16 9 = some (.add (.literal 0) (.literal 0) (.literal 0)) ∧
      decodeTableWord 32 (9 + 65536 * 32769) =
        some (.add (.register 1) (.literal 0) (.literal 0)) := by decide

/-! Well-formedness: an ill-formed operand in each place is refused, and the smallest invalid word is
well formed. -/

theorem test_wf_smoke_a : (Instr.push (.invalid 32775)).wf = false := by decide
theorem test_wf_smoke_b : (Instr.wmem (.literal 1) (.invalid 5)).wf = false := by decide
theorem test_wf_smoke_c :
    (Instr.add (.register 0) (.literal 1) (.invalid 32768)).wf = false := by decide
theorem test_wf_invalid_word : (Instr.push (.invalid 32776)).wf = true := by decide

/-! One step each. -/

/-- H-2 and H-3. -/
theorem test_halt_keeps_stack :
    after { loaded [0] with stack := [3, 4] } =
      some ([0, 0, 0, 0, 0, 0, 0, 0], 32768, [3, 4], .halted) := by decide
theorem test_noop_at_10 :
    (nextOf (step { State.reset with mem := writeCells [] 10 [21], pc := 10 })).map (·.pc.toNat) =
      some 11 := by decide

/-- D-1 and D-2. -/
theorem test_set_literal :
    after (loaded [1, 32775, 32767]) =
      some ([0, 0, 0, 0, 0, 0, 0, 32767], 3, [], .running) := by decide
theorem test_set_register :
    after ((loaded [1, 32769, 32770]).writeReg 2 44) =
      some ([0, 44, 44, 0, 0, 0, 0, 0], 3, [], .running) := by decide

/-- D-3 and D-4. -/
theorem test_push_register :
    after ((loaded [2, 32768]).writeReg 0 8) =
      some ([8, 0, 0, 0, 0, 0, 0, 0], 2, [8], .running) := by decide
theorem test_push_full :
    after { loaded [2, 2] with stack := [1], cfg := ⟨.skip, .bounded 1⟩ } =
      some ([0, 0, 0, 0, 0, 0, 0, 0], 0, [1], .faulted ⟨.stackOverflow, 0, 2⟩) := by decide

/-- D-5 and D-8. -/
theorem test_pop :
    after { loaded [3, 32771] with stack := [5, 6] } =
      some ([0, 0, 0, 5, 0, 0, 0, 0], 2, [6], .running) := by decide
theorem test_pop_non_word :
    after { loaded [3, 32768] with stack := [32768] } =
      some ([0, 0, 0, 0, 0, 0, 0, 0], 0, [32768], .faulted ⟨.popValueNotWord, 0, 3⟩) := by decide

/-- Q-3 and Q-2. -/
theorem test_eq_resolved :
    after ((loaded [4, 32769, 32770, 7]).writeReg 2 7) =
      some ([0, 1, 7, 0, 0, 0, 0, 0], 4, [], .running) := by decide
theorem test_eq_differs :
    after ((loaded [4, 32768, 5, 6]).writeReg 0 9) =
      some ([0, 0, 0, 0, 0, 0, 0, 0], 4, [], .running) := by decide

/-- Q-5 and Q-4. -/
theorem test_gt_unsigned :
    after (loaded [5, 32768, 32767, 0]) =
      some ([1, 0, 0, 0, 0, 0, 0, 0], 4, [], .running) := by decide
theorem test_gt_strict :
    after ((loaded [5, 32768, 5, 5]).writeReg 0 9) =
      some ([0, 0, 0, 0, 0, 0, 0, 0], 4, [], .running) := by decide

/-- B-2. -/
theorem test_jmp_register :
    after ((loaded [6, 32771]).writeReg 3 9) =
      some ([0, 0, 0, 9, 0, 0, 0, 0], 9, [], .running) := by decide

/-- B-6 and B-7. -/
theorem test_jt_taken :
    after ((loaded [7, 32768, 50]).writeReg 0 32767) =
      some ([32767, 0, 0, 0, 0, 0, 0, 0], 50, [], .running) := by decide
theorem test_jt_invalid_target :
    after (loaded [7, 0, 40000]) =
      some ([0, 0, 0, 0, 0, 0, 0, 0], 0, [], .faulted ⟨.invalidOperand, 0, 7⟩) := by decide

/-- B-8 and B-9, with the words at index 0. -/
theorem test_jf_taken :
    after (loaded [8, 32768, 20]) =
      some ([0, 0, 0, 0, 0, 0, 0, 0], 20, [], .running) := by decide
theorem test_jf_not_taken :
    after ((loaded [8, 32768, 20]).writeReg 0 9) =
      some ([9, 0, 0, 0, 0, 0, 0, 0], 3, [], .running) := by decide

/-- A-3 and C-12. -/
theorem test_add_wraps :
    after (loaded [9, 32768, 32758, 15]) =
      some ([5, 0, 0, 0, 0, 0, 0, 0], 4, [], .running) := by decide
theorem test_add_source_is_destination :
    after ((loaded [9, 32768, 32768, 32768]).writeReg 0 7) =
      some ([14, 0, 0, 0, 0, 0, 0, 0], 4, [], .running) := by decide

/-- A-6 and A-8. -/
theorem test_mult_wraps :
    after (loaded [10, 32768, 300, 200]) =
      some ([27232, 0, 0, 0, 0, 0, 0, 0], 4, [], .running) := by decide
theorem test_mult_largest :
    after (loaded [10, 32768, 32767, 32767]) =
      some ([1, 0, 0, 0, 0, 0, 0, 0], 4, [], .running) := by decide

/-- A-11 and A-15. -/
theorem test_mod_smaller :
    after (loaded [11, 32768, 3, 10]) =
      some ([3, 0, 0, 0, 0, 0, 0, 0], 4, [], .running) := by decide
theorem test_mod_zero :
    after ((loaded [11, 32768, 5, 0]).writeReg 0 3) =
      some ([3, 0, 0, 0, 0, 0, 0, 0], 0, [], .faulted ⟨.divideByZero, 0, 11⟩) := by decide

/-- A-17, A-20 and A-25. -/
theorem test_and :
    after (loaded [12, 32768, 32535, 255]) =
      some ([23, 0, 0, 0, 0, 0, 0, 0], 4, [], .running) := by decide
theorem test_or :
    after (loaded [13, 32768, 23, 32]) =
      some ([55, 0, 0, 0, 0, 0, 0, 0], 4, [], .running) := by decide
theorem test_not :
    after (loaded [14, 32768, 232]) =
      some ([32535, 0, 0, 0, 0, 0, 0, 0], 3, [], .running) := by decide

/-- M-7 and M-3. -/
theorem test_rmem_own_opcode :
    after (loaded [15, 32768, 0]) =
      some ([15, 0, 0, 0, 0, 0, 0, 0], 3, [], .running) := by decide
theorem test_rmem_non_word :
    after (loaded [15, 32768, 3, 32770]) =
      some ([0, 0, 0, 0, 0, 0, 0, 0], 0, [], .faulted ⟨.memoryWordNotValue, 0, 15⟩) := by decide

/-- M-4 and M-6. -/
theorem test_wmem_register :
    (nextOf (step ((loaded [16, 21, 32768]).writeReg 0 65))).map (fun t => (t.readMem 21, t.pc)) =
      some (65, 3) := by decide
theorem test_wmem_own_word :
    (nextOf (step (loaded [16, 1, 32768]))).map (fun t => (t.readMem 1, t.readMem 0, t.pc)) =
      some (0, 16, 3) := by decide

/-- R-2 and R-5 (the call at index 32766). -/
theorem test_call_register :
    after ((loaded [17, 32768]).writeReg 0 40) =
      some ([40, 0, 0, 0, 0, 0, 0, 0], 40, [2], .running) := by decide
theorem test_call_at_end :
    after { State.reset with mem := writeCells [] 32766 [17, 100], pc := 32766 } =
      some ([0, 0, 0, 0, 0, 0, 0, 0], 100, [32768], .running) := by decide

/-- R-3 with the words at index 0, and R-4. -/
theorem test_ret :
    after { loaded [18] with stack := [2] } =
      some ([0, 0, 0, 0, 0, 0, 0, 0], 2, [], .running) := by decide
theorem test_ret_empty :
    after (loaded [18]) = some ([0, 0, 0, 0, 0, 0, 0, 0], 32768, [], .halted) := by decide

/-- I-2. -/
theorem test_out_whole_word :
    (nextOf (step (loaded [19, 300]))).map (fun t => (t.events, t.pc)) =
      some ([.emitOut 300], 2) := by decide

/-- I-3 and I-6. -/
theorem test_in_waits :
    (nextOf (step (loaded [20, 32768]))).map (fun t => (t.run, t.pc, t.events)) =
      some (.waitInput 0, 0, [.awaitIn]) := by decide
theorem test_in_literal :
    after (loaded [20, 7]) =
      some ([0, 0, 0, 0, 0, 0, 0, 0], 0, [], .faulted ⟨.destNotRegister, 0, 20⟩) := by decide

/-- I-4 and I-5. -/
theorem test_in_value :
    after { loaded [20, 32768] with run := .waitInput 0, answers := [.value 65] } =
      some ([65, 0, 0, 0, 0, 0, 0, 0], 2, [], .running) := by decide
theorem test_in_eof :
    after { loaded [20, 32768] with run := .waitInput 0, answers := [.eof] } =
      some ([0, 0, 0, 0, 0, 0, 0, 0], 0, [], .faulted ⟨.inputExhausted, 0, 20⟩) := by decide

/-- C-1: the end of memory. -/
theorem test_end_of_memory :
    after { State.reset with pc := 32768 } =
      some ([0, 0, 0, 0, 0, 0, 0, 0], 32768, [], .halted) := by decide

/-- C-2 and C-3: the unknown opcode 22 under both policies. -/
theorem test_unknown_skip :
    (nextOf (step (loaded [22]))).map (fun t => (t.events, t.pc, t.run)) =
      some ([.reportUnknown 0 22], 1, .running) := by decide
theorem test_unknown_fault :
    after { loaded [22] with cfg := ⟨.fault, .unbounded⟩ } =
      some ([0, 0, 0, 0, 0, 0, 0, 0], 0, [], .faulted ⟨.unknownOpcode, 0, 22⟩) := by decide

/-- C-5 and C-6: operand words past the end. -/
theorem test_operand_past_end :
    after { State.reset with mem := writeCells [] 32767 [19], pc := 32767 } =
      some ([0, 0, 0, 0, 0, 0, 0, 0], 32767, [],
        .faulted ⟨.operandFetchOutOfRange, 32767, 19⟩) := by decide
theorem test_third_operand_past_end :
    after { State.reset with mem := writeCells [] 32765 [9, 32768, 1], pc := 32765 } =
      some ([0, 0, 0, 0, 0, 0, 0, 0], 32765, [],
        .faulted ⟨.operandFetchOutOfRange, 32765, 9⟩) := by decide

/-- C-11: operand a is checked first. -/
theorem test_operand_order :
    after (loaded [4, 5, 40000, 1]) =
      some ([0, 0, 0, 0, 0, 0, 0, 0], 0, [], .faulted ⟨.destNotRegister, 0, 4⟩) := by decide

/-- The codes of 60_exceptions.md R130. -/
theorem test_fault_codes :
    [FaultCause.invalidOperand, .destNotRegister, .operandFetchOutOfRange, .unknownOpcode,
      .stackUnderflow, .stackOverflow, .divideByZero, .memoryWordNotValue, .popValueNotWord,
      .inputExhausted].map FaultCause.code = [1, 2, 3, 4, 5, 6, 7, 8, 9, 10] := by decide

/-- L-1, L-2, L-3 and L-5. -/
theorem test_load_image :
    loadImage [0x15, 0x00] = .ok [(0, 21)] ∧ loadImage [0x08, 0x80] = .error .wordOutOfRange ∧
      loadImage [0x00] = .error .oddByteCount ∧ loadImage [] = .ok [] := by decide

/-- The empty image halts after one step (L-5, H-4). -/
theorem test_reset_halts :
    after State.reset = some ([0, 0, 0, 0, 0, 0, 0, 0], 32768, [], .halted) := by decide

/-- A placed word of the opcode table is what the next step runs. -/
theorem test_place_word :
    after (State.reset.withFetchWord 32 (2 + 65536 * 300)) =
      some ([0, 0, 0, 0, 0, 0, 0, 0], 2, [300], .running) := by decide

/-! Witnesses: for each statement of Certificates/Slice0/Obligations.lean that has hypotheses, a concrete
state and operands that meet them together, at a boundary of each clause's range. -/

/-- A waiting core on a full bounded stack: a state of the invariant. -/
def waiting (answers : List HostAnswer) : State :=
  { loaded [20, 32775] with
    run := .waitInput 7, stack := [32768, 1], cfg := ⟨.fault, .bounded 2⟩, answers := answers }

theorem witness_inv (answers : List HostAnswer) : (waiting answers).Inv :=
  ⟨rfl, (by decide : (waiting []).pc.toNat ≤ 32768),
    by simp [waiting], Nat.le_refl 2,
    (by decide : (waiting []).pc.toNat + 1 < 32768),
    (by decide : (waiting []).readMem (waiting []).pc.toNat = 20),
    (by decide : ((waiting []).readMem ((waiting []).pc.toNat + 1)).toNat = 32768 + 7)⟩

/-- A running core on a full bounded stack at the last cell, which holds noop. -/
def atEnd : State :=
  { State.reset with
    mem := writeCells [] 32767 [21], pc := 32767, stack := [32768], cfg := ⟨.skip, .bounded 1⟩ }

theorem witness_inv_running : atEnd.Inv :=
  ⟨by decide, by decide, by simp [atEnd], Nat.le_refl 1, trivial⟩

theorem witness_DecodeOfEncode :
    (Instr.add (.register 7) (.literal 32767) (.invalid 32776)).wf = true ∧
      (Instr.set (.literal 0) (.invalid 65535)).wf = true ∧ Instr.ret.wf = true := by decide

theorem witness_EncodeOfDecode :
    decode [16, 65535, 32775, 4] = .ok (.wmem (.invalid 65535) (.register 7), [4]) := by rfl

theorem witness_OpcodeWordIsKnownOrUnknown :
    21 < (22 : Word16).toNat ∧ (21 : Word16).toNat ≤ 21 ∧
      (13 : Word16).toNat ≤ 21 ∧ 3 ≤ [(1 : Word16), 2, 3].length := by decide

theorem witness_RawOperandWordHasOneForm :
    (32767 : Word16).toNat < 32768 ∧
      (32768 ≤ (32768 : Word16).toNat ∧ (32768 : Word16).toNat < 32776) ∧
      (32768 ≤ (32775 : Word16).toNat ∧ (32775 : Word16).toNat < 32776) ∧
      32776 ≤ (32776 : Word16).toNat := by decide

theorem witness_LoadPortWritesOnlyUnderReset :
    State.reset.resetLine = false ∧ State.reset.assertReset.resetLine = true ∧
      (State.reset.assertReset.loadPort 32767 32775).readMem 32767 = 32775 := by decide

theorem witness_ImageIsLoadedOrRefused :
    ∃ m, loadImage [0x07, 0x80, 0x15, 0x00] = .ok m := ⟨_, rfl⟩

theorem witness_StepRunsDecodedInstruction :
    atEnd.ready ∧ Instr.noop.wf = true ∧ atEnd.holdsAtPc (encode .noop) :=
  ⟨⟨rfl, rfl⟩, rfl, by decide, fun k h => by
    obtain rfl : k = 0 := by simpa [encode] using h
    exact (by decide : atEnd.readMem atEnd.pc.toNat = 21)⟩

theorem witness_PcAtEndOfMemoryHalts :
    ({ State.reset with pc := 32768 } : State).ready ∧
      ({ State.reset with pc := 32768 } : State).pc = 32768 := ⟨⟨rfl, rfl⟩, rfl⟩

theorem witness_UnknownOpcodeFollowsPolicy_skip :
    (loaded [22]).ready ∧ (loaded [22]).pc.toNat < 32768 ∧
      21 < ((loaded [22]).readMem (loaded [22]).pc.toNat).toNat ∧
      (loaded [22]).cfg.unknownOpcode = .skip := ⟨⟨rfl, rfl⟩, by decide, by decide, rfl⟩

theorem witness_UnknownOpcodeFollowsPolicy_fault :
    ∃ s : State, s.ready ∧ s.pc.toNat < 32768 ∧ 21 < (s.readMem s.pc.toNat).toNat ∧
      s.cfg.unknownOpcode = .fault :=
  ⟨{ State.reset with
      mem := writeCells [] 32767 [65535], pc := 32767, cfg := ⟨.fault, .unbounded⟩ },
    ⟨rfl, rfl⟩, by decide, by decide, rfl⟩

theorem witness_OperandFetchPastEndFaults :
    ∃ (s : State) (i : Instr), s.ready ∧ s.pc.toNat < 32768 ∧
      (encode i).head? = some (s.readMem s.pc.toNat) ∧ 32767 < s.pc.toNat + i.operands.length :=
  ⟨{ State.reset with mem := writeCells [] 32765 [9], pc := 32765 },
    .add (.register 0) (.literal 1) (.literal 1), ⟨rfl, rfl⟩, by decide, by decide, by decide⟩

theorem witness_NoChangeWhenTerminalOrHeld :
    State.reset.haltedAtEnd.run = .halted ∧
      (State.reset.faultedBy .unknownOpcode).run = .faulted ⟨.unknownOpcode, 0, 0⟩ ∧
      State.reset.assertReset.resetLine = true := by decide

theorem witness_AnswerCompletesInput :
    (waiting []).resetLine = false ∧ (waiting []).run = .waitInput 7 ∧
      (waiting []).pc.toNat < 32768 ∧ (waiting [.value 32767]).answers = [.value 32767] ∧
      (waiting [.eof]).answers = [.eof] ∧ (waiting []).answers = [] := by decide

/-- One source operand of each accepted form: the hypotheses of the statements about set, jmp, jt, jf,
add, mult, mod, and, or, not, rmem, wmem, eq, gt and out. -/
theorem witness_sources :
    (Operand.literal 32767).isSource = true ∧ (Operand.register 7).isSource = true := by decide

theorem witness_ResolveReadsLiteralOrRegister :
    (32767 : Word16).toNat < 32768 ∧ (32775 : Word16).toNat ≤ 32775 ∧
      (32775 : Word16).toNat = 32768 + (7 : RegIx).val := by decide

theorem witness_PushPutsSourceOnTop :
    (Operand.literal 0).isSource = true ∧ State.reset.stackFull = false ∧
      ({ State.reset with cfg := ⟨.skip, .bounded 1⟩ } : State).stackFull = false := by decide

theorem witness_PopAfterPushYieldsTheValue :
    (Operand.register 7).isSource = true ∧
      ({ atEnd with cfg := ⟨.skip, .bounded 2⟩ } : State).stackFull = false := by decide

theorem witness_FullStackFaultsPushAndCall :
    (Operand.literal 0).isSource = true ∧ atEnd.cfg.stackCapacity = .bounded 1 ∧
      atEnd.stack.length = 1 ∧ State.reset.cfg.stackCapacity = .unbounded ∧
      ({ State.reset with cfg := ⟨.skip, .bounded 1⟩ } : State).stack.length ≠ 1 := by decide

theorem witness_PopTakesTheTop :
    ({ State.reset with stack := [32767, 3] } : State).stack = [32767, 3] ∧
      (32767 : Word16).toNat ≤ 32767 := by decide

theorem witness_PopFaultsOnEmptyOrNonWord :
    State.reset.stack = [] ∧ atEnd.stack = [32768] ∧ 32767 < (32768 : Word16).toNat := by decide

theorem witness_JtAndJfTestAgainstZero :
    (resolve (.literal 1) State.reset).toNat ≠ 0 ∧
      (resolve (.register 0) State.reset).toNat = 0 := by decide

theorem witness_ModWritesRemainderOrFaults :
    (resolve (.literal 1) State.reset).toNat ≠ 0 ∧
      (resolve (.literal 0) State.reset).toNat = 0 := by decide

theorem witness_RmemReadsCellOrFaults :
    ((loaded [32767]).readMem (resolve (.literal 0) (loaded [32767])).toNat).toNat ≤ 32767 ∧
      32767 < ((loaded [32768]).readMem (resolve (.literal 0) (loaded [32768])).toNat).toNat := by
  decide

theorem witness_CallPushesReturnAddress :
    (Operand.literal 0).isSource = true ∧ State.reset.stackFull = false := by decide

theorem witness_RetPopsOrHalts : atEnd.stack = [32768] ∧ State.reset.stack = [] := by decide

theorem witness_OperandsAreCheckedInOrder :
    (Instr.eq (.literal 32767) (.invalid 32776) (.literal 0)).wf = true ∧
      firstOperandFault (.eq (.literal 32767) (.invalid 32776) (.literal 0)) =
        some .destNotRegister ∧
      firstOperandFault (.eq (.register 0) (.register 7) (.invalid 32776)) =
        some .invalidOperand := by decide

theorem witness_FaultsArePrecise :
    State.reset.run = .running ∧
      exec (.pop (.register 0)) State.reset = .next (State.reset.faultedBy .stackUnderflow) ∧
      (State.reset.faultedBy .stackUnderflow).run = .faulted ⟨.stackUnderflow, 0, 0⟩ :=
  ⟨rfl, rfl, by decide⟩

/-- A next state with a register, with memory, with the stack, and with an event written: the
hypothesis of the statements about all instructions. -/
theorem witness_exec_next :
    exec (.set (.register 3) (.literal 9)) State.reset =
        .next ((State.reset.writeReg 3 9).advance 3) ∧
      exec (.wmem (.literal 21) (.literal 65)) State.reset =
        .next ((State.reset.writeMem 21 65).advance 3) ∧
      exec (.push (.literal 65)) State.reset = .next ((State.reset.push 65).advance 2) ∧
      exec (.out (.literal 65)) State.reset =
        .next ((State.reset.emit (.emitOut 65)).advance 2) := ⟨rfl, rfl, rfl, rfl⟩

theorem witness_PcAdvancesByLength :
    exec .noop State.reset = .next (State.reset.advance 1) ∧ State.reset.run = .running ∧
      (State.reset.advance 1).run = .running ∧
      (∀ a b, Instr.noop ≠ .jmp a ∧ Instr.noop ≠ .jt a b ∧ Instr.noop ≠ .jf a b ∧
        Instr.noop ≠ .call a) ∧ Instr.noop ≠ .ret :=
  ⟨rfl, rfl, rfl, by simp, by decide⟩

theorem witness_RetAfterCallResumes :
    exec (.call (.literal 50)) State.reset =
        .next ((State.reset.push 2).setPc 50) ∧
      ({ State.reset with stack := [2], pc := 50 } : State).stack =
        ((State.reset.push 2).setPc 50).stack := ⟨rfl, rfl⟩

theorem witness_NextFetchSeesTheStore :
    exec (.wmem (.literal 4) (.literal 90)) State.reset =
        .next ((State.reset.writeMem 4 90).advance 3) ∧
      ((State.reset.writeMem 4 90).advance 3).pc.toNat + 1 < 32768 ∧
      wmemAddress (.literal 4) State.reset = ((State.reset.writeMem 4 90).advance 3).pc.toNat + 1 :=
  ⟨rfl, by decide, by decide⟩

theorem witness_StepKeepsInvariant :
    (waiting [.value 5]).Inv ∧ step (waiting [.value 5]) = completeInput 7 (waiting [.value 5]) ∧
      (nextOf (step (waiting [.value 5]))).isSome = true :=
  ⟨witness_inv _, rfl, by decide⟩

theorem witness_StepKeepsCellsLoaded :
    ({ State.reset with pc := 5 } : State).CellsLoaded ∧
      (nextOf (step { State.reset with pc := 5 })).isSome = true :=
  ⟨fun i _ => by
    have h : readCell [] i = 0 := by simp only [readCell, readByte]; decide
    change (readCell [] i).toNat ≤ 32775
    rw [h]; decide, by decide⟩

theorem witness_StepNeverStops : (waiting []).Inv ∧ atEnd.Inv :=
  ⟨witness_inv _, witness_inv_running⟩

theorem witness_StepKeepsInputsAndAddsEvents :
    (nextOf (step (waiting [.eof]))).isSome = true ∧ (nextOf (step atEnd)).isSome = true := by
  decide

theorem witness_RunStateMovesByItsArcs :
    atEnd.Inv ∧ atEnd.resetLine = false ∧ (nextOf (step atEnd)).isSome = true ∧
      atEnd.run = .running ∧ (waiting []).run = .waitInput 7 :=
  ⟨witness_inv_running, rfl, by decide, rfl, rfl⟩

theorem witness_CanonicalMemoryIsItsReads :
    Memory.wf [(0, 21), (65535, 128)] = true ∧
      Memory.wf (writeCells [] 32767 [0x8000]) = true ∧ Memory.wf [(1, 0)] = false ∧
      Memory.wf [(65536, 1)] = false ∧ Memory.wf [(2, 1), (2, 1)] = false := by decide

end Sys2Proof.Tests
end

section
/-! The program counter after reset (10_state.md R35). Loading the host's memory, configuration and
answers into the reset state does not touch it, so it is the reset state's own. -/

namespace Sys2Proof.Machine

@[simp] theorem State.reset_pc : State.reset.pc = 0 := rfl

theorem State.releaseReset_pc_eq_reset_pc (s : State) : s.releaseReset.pc = State.reset.pc := rfl

@[simp] theorem State.releaseReset_pc (s : State) : s.releaseReset.pc = 0 :=
  (s.releaseReset_pc_eq_reset_pc).trans State.reset_pc

/-- Settles O7: the pc of the reset state is 0, and releasing reset takes the pc from that state. -/
theorem resetPcIsZero : Obligations.ResetPcIsZero :=
  ⟨State.reset_pc, State.releaseReset_pc⟩

end Sys2Proof.Machine
end

section
/-! The encoding of instructions: which words are opcodes (30_encoding.md R79), how many words an
instruction has (R71), and what a raw operand word stands for (R74). -/

namespace Sys2Proof

/-- A word up to 21 is one of the 22 opcodes (30_encoding.md R78). -/
theorem exists_opcodeForm_of_le {n : Nat} (h : n ≤ 21) : ∃ f, opcodeForm n = some f :=
  Option.ne_none_iff_exists'.1 fun hn => Nat.not_lt.2 h ((opcodeForm_eq_none_iff n).1 hn)

theorem Form.count_le_three (f : Form) : f.count ≤ 3 := by
  cases f <;> simp [Form.count]

section
variable {w : Word16} {f : Form} {ws : List Word16}

/-- The decoder on a known opcode whose operand words are not all there (40_cycle.md R93). -/
theorem decode_missing (hf : opcodeForm w.toNat = some f) (h : ws.length < f.count) :
    decode (w :: ws) = .error (.missingOperand w) := by
  simp [decode, hf, (f.take_eq_none_iff ws).2 h]

/-- The decoder on a known opcode that has its operand words (30_encoding.md R84). -/
theorem decode_enough (hf : opcodeForm w.toNat = some f) (h : f.count ≤ ws.length) :
    ∃ i rest, decode (w :: ws) = .ok (i, rest) := by
  have htake : f.take ws ≠ none := fun hn => Nat.not_lt.2 h ((f.take_eq_none_iff ws).1 hn)
  obtain ⟨⟨i, rest⟩, hr⟩ := Option.ne_none_iff_exists'.1 htake
  exact ⟨i, rest, by simp [decode, hf, hr]⟩

end

/-- Settles O3: the opcode map knows exactly 0 to 21, and a known opcode decodes exactly when the list
holds its operand words, which are at most three. -/
theorem opcodeWordIsKnownOrUnknown : Obligations.OpcodeWordIsKnownOrUnknown := by
  intro w ws
  refine ⟨fun h => decode_unknown h ws, fun h => ?_, fun h hlen => ?_⟩
  · obtain ⟨f, hf⟩ := exists_opcodeForm_of_le h
    exact (Nat.lt_or_ge ws.length f.count).symm.imp (decode_enough hf) (decode_missing hf)
  · obtain ⟨f, hf⟩ := exists_opcodeForm_of_le h
    exact decode_enough hf (f.count_le_three.trans hlen)

/-- An instruction's length is its opcode word and one word for each operand of the role table
(30_encoding.md R70, R72). -/
theorem encode_length (i : Instr) : (encode i).length = 1 + i.operands.length := by
  cases i <;> rfl

/-- Settles O4: the length counts the operands of the role table, a number that each constructor
fixes. -/
theorem lengthIsFixedByOpcode : Obligations.LengthIsFixedByOpcode := by
  intro a b c
  simp only [List.forall_mem_cons, encode_length]
  simp [Instr.operands]

/-- Settles O5: on each of the three ranges the raw word has the form of that range, and neither the
15 bits of a literal nor the three of a register index lose anything there. -/
theorem rawOperandWordHasOneForm : Obligations.RawOperandWordHasOneForm := by
  intro w
  refine ⟨fun h => ⟨_, ?_, decodeOperand_literal h⟩,
    fun h h' => ⟨_, ?_, decodeOperand_register h h'⟩, decodeOperand_invalid⟩
  · exact Nat.mod_eq_of_lt h
  · exact Nat.mod_eq_of_lt (by omega)

end Sys2Proof
end

section
/-! The step of a running core with reset released, and its halt at the end of memory (40_cycle.md
R90, R91). -/

namespace Sys2Proof.Machine

variable {s : State}

/-- A core that is ready takes the step of `Running` (40_cycle.md R90). -/
theorem step_of_ready (h : s.ready) : step s = stepRunning s := by
  obtain ⟨hreset, hrun⟩ := h
  rw [step_of_run hreset, hrun]

/-- The test of the pc comes before the fetch (40_cycle.md R91). -/
theorem stepRunning_of_pc_eq_end (h : s.pc = 32768) :
    stepRunning s = .next (s.setRun .halted) :=
  if_pos h

/-- Settles O13: a ready core takes the step of `Running`, which tests for the end of memory first and
then sets the run state alone. -/
theorem pcAtEndOfMemoryHalts : Obligations.PcAtEndOfMemoryHalts := by
  intro s hready hpc
  calc step s = stepRunning s := step_of_ready hready
    _ = .next (s.setRun .halted) := stepRunning_of_pc_eq_end hpc

end Sys2Proof.Machine
end

section
/-! The comparisons (43_compare.md): the number a comparison writes, and the frame of every instruction
whose only result is a register. -/

namespace Sys2Proof.Machine

/-- A register's value is not touched by the pc's advance (10_state.md R32). -/
@[simp] theorem State.readReg_advance (s : State) (len : Nat) (i : RegIx) :
    (s.advance len).readReg i = s.readReg i := rfl

/-- Writing one register and advancing meets the frame of the register-result instructions
(40_cycle.md R97). -/
theorem State.onlyRegister_writeReg_advance (s : State) (d : RegIx) (v : Word) (len : Nat) :
    OnlyRegister d len s ((s.writeReg d v).advance len) :=
  have hregs : SameRegsBut d s ((s.writeReg d v).advance len) :=
    fun _ hq => State.readReg_writeReg_ne s v hq
  have hmem : SameMemory s ((s.writeReg d v).advance len) := fun _ => rfl
  ⟨rfl, hregs, hmem, rfl, rfl, ⟨rfl, rfl, rfl⟩, rfl⟩

/-- A two-source instruction on a register destination and accepted sources: what the destination
holds, and the frame. -/
theorem binaryOp_writes_onlyRegister (f : Word → Word → Word) (d : RegIx) {b c : Operand}
    (hb : b.isSource = true) (hc : c.isSource = true) (s : State) :
    ∃ t, binaryOp f (.register d) b c s = .next t ∧
      t.readReg d = f (resolve b s) (resolve c s) ∧ OnlyRegister d 4 s t :=
  ⟨_, binaryOp_completes f d hb hc s, by simp, s.onlyRegister_writeReg_advance d _ 4⟩

/-- A comparison's result is exactly 1 or 0 (10_state.md R42). -/
theorem truthWord_decide_toNat (p : Prop) [Decidable p] :
    (truthWord (decide p)).toNat = if p then 1 else 0 := by
  by_cases h : p <;> simp [truthWord, h]

theorem eqWord_toNat (b c : Word) : (eqWord b c).toNat = if b = c then 1 else 0 :=
  truthWord_decide_toNat (b = c)

theorem gtWord_toNat (b c : Word) :
    (gtWord b c).toNat = if b.toNat > c.toNat then 1 else 0 :=
  truthWord_decide_toNat (c.toNat < b.toNat)

/-- Settles O26: `eq` is the two-source instruction whose function is `eqWord`, and that Word is 1 on
equal Words and 0 on others. -/
theorem eqWritesOneOrZero : Obligations.EqWritesOneOrZero := by
  intro s d b c hb hc
  obtain ⟨t, hexec, hreg, honly⟩ := binaryOp_writes_onlyRegister eqWord d hb hc s
  exact ⟨rfl, t, hexec, by rw [hreg, eqWord_toNat], honly⟩

/-- Settles O27: `gt` is the two-source instruction whose function is `gtWord`, and that Word compares
the unsigned values strictly. -/
theorem gtWritesOneOrZero : Obligations.GtWritesOneOrZero := by
  intro s d b c hb hc
  obtain ⟨t, hexec, hreg, honly⟩ := binaryOp_writes_onlyRegister gtWord d hb hc s
  exact ⟨rfl, t, hexec, by rw [hreg, gtWord_toNat], honly⟩

end Sys2Proof.Machine
end

section
/-! The arithmetic and bitwise instructions (45_alu.md): the number each result Word stands for, and
the register-result shapes on a result whose number is known. -/

namespace Sys2Proof.Machine

/-- The mask 0x7FFF of the spec's bitwise results keeps a Word: it has the 15 bits of the mask. -/
theorem word_toNat_and_mask (v : Word) : v.toNat &&& 0x7FFF = v.toNat :=
  Nat.and_two_pow_sub_one_of_lt_two_pow v.isLt

theorem addWord_toNat (b c : Word) : (addWord b c).toNat = (b.toNat + c.toNat) % 32768 :=
  BitVec.toNat_ofNat _ 15

theorem multWord_toNat (b c : Word) : (multWord b c).toNat = (b.toNat * c.toNat) % 32768 :=
  BitVec.toNat_ofNat _ 15

theorem andWord_toNat (b c : Word) :
    (andWord b c).toNat = (b.toNat &&& c.toNat) &&& 0x7FFF := by
  rw [← word_toNat_and_mask, andWord, BitVec.toNat_and]

theorem orWord_toNat (b c : Word) :
    (orWord b c).toNat = (b.toNat ||| c.toNat) &&& 0x7FFF := by
  rw [← word_toNat_and_mask, orWord, BitVec.toNat_or]

/-- Inverting all 15 bits subtracts from the largest Word (45_alu.md R122). -/
theorem notWord_toNat (b : Word) : (notWord b).toNat = 32767 - b.toNat :=
  BitVec.toNat_not

/-- A one-source instruction on a register destination and an accepted source: the number the
destination holds, and the frame. -/
theorem unaryOp_writes_toNat (f : Word → Word) (d : RegIx) {b : Operand} (hb : b.isSource = true)
    (s : State) {n : Nat} (hf : (f (resolve b s)).toNat = n) :
    ∃ t, unaryOp f (.register d) b s = .next t ∧
      (t.readReg d).toNat = n ∧ OnlyRegister d 3 s t :=
  ⟨_, unaryOp_completes f d hb s, by simp [hf], s.onlyRegister_writeReg_advance d _ 3⟩

/-- A two-source instruction on a register destination and accepted sources: the number the
destination holds, and the frame. -/
theorem binaryOp_writes_toNat (f : Word → Word → Word) (d : RegIx) {b c : Operand}
    (hb : b.isSource = true) (hc : c.isSource = true) (s : State) {n : Nat}
    (hf : (f (resolve b s) (resolve c s)).toNat = n) :
    ∃ t, binaryOp f (.register d) b c s = .next t ∧
      (t.readReg d).toNat = n ∧ OnlyRegister d 4 s t := by
  obtain ⟨t, hexec, hreg, honly⟩ := binaryOp_writes_onlyRegister f d hb hc s
  exact ⟨t, hexec, by rw [hreg, hf], honly⟩

/-- Settles O30: `add` is the two-source instruction of `addWord`, the exact sum reduced to 15 bits. -/
theorem addWritesSumModulo : Obligations.AddWritesSumModulo :=
  fun s d _ _ hb hc => ⟨rfl, binaryOp_writes_toNat addWord d hb hc s (addWord_toNat _ _)⟩

/-- Settles O31: `mult` is the two-source instruction of `multWord`, the exact product reduced to 15
bits. -/
theorem multWritesProductModulo : Obligations.MultWritesProductModulo :=
  fun s d _ _ hb hc => ⟨rfl, binaryOp_writes_toNat multWord d hb hc s (multWord_toNat _ _)⟩

/-- Settles O33: `and` is the two-source instruction of `andWord`, whose result the mask keeps. -/
theorem andWritesBitwiseAnd : Obligations.AndWritesBitwiseAnd :=
  fun s d _ _ hb hc => ⟨rfl, binaryOp_writes_toNat andWord d hb hc s (andWord_toNat _ _)⟩

/-- Settles O34: `or` is the two-source instruction of `orWord`, whose result the mask keeps. -/
theorem orWritesBitwiseOr : Obligations.OrWritesBitwiseOr :=
  fun s d _ _ hb hc => ⟨rfl, binaryOp_writes_toNat orWord d hb hc s (orWord_toNat _ _)⟩

/-- Settles O35: `not` is the one-source instruction of `notWord`, the difference from 32767. -/
theorem notWritesComplement : Obligations.NotWritesComplement :=
  fun s d _ hb => ⟨rfl, unaryOp_writes_toNat notWord d hb s (notWord_toNat _)⟩

end Sys2Proof.Machine
end

section
/-! Decoding and encoding are inverse (30_encoding.md §1, §2): the opcode map and the encoder agree,
form by form, on the opcode word, the operand words and which operands are the instruction's. -/

namespace Sys2Proof

/-- The encoder lays the instructions of a form out as opcode word `w` and their operand words, and
they are well formed exactly when those operands are (30_encoding.md R70, R72). -/
def Form.Encodes (w : Word16) : Form → Prop
  | .f0 i => encode i = [w] ∧ i.wf = true ∧ i.operands.length = 0
  | .f1 mk => ∀ a, encode (mk a) = [w, encodeOperand a] ∧ ((mk a).wf = true ↔ a.wf = true) ∧
      (mk a).operands.length = 1
  | .f2 mk => ∀ a b, encode (mk a b) = [w, encodeOperand a, encodeOperand b] ∧
      ((mk a b).wf = true ↔ a.wf = true ∧ b.wf = true) ∧ (mk a b).operands.length = 2
  | .f3 mk => ∀ a b c,
      encode (mk a b c) = [w, encodeOperand a, encodeOperand b, encodeOperand c] ∧
      ((mk a b c).wf = true ↔ a.wf = true ∧ b.wf = true ∧ c.wf = true) ∧
      (mk a b c).operands.length = 3

/-- The instruction is one that the form makes. -/
def Form.Makes (i : Instr) : Form → Prop
  | .f0 j => i = j
  | .f1 mk => ∃ a, i = mk a
  | .f2 mk => ∃ a b, i = mk a b
  | .f3 mk => ∃ a b c, i = mk a b c

/-- The opcode map and the encoder agree on every opcode word (30_encoding.md R77). -/
theorem opcodeForm_encodes {w : Word16} {f : Form} (hf : opcodeForm w.toNat = some f) :
    f.Encodes w := by
  have hle : w.toNat ≤ 21 := Nat.not_lt.1 fun hgt => by
    rw [(opcodeForm_eq_none_iff _).2 hgt] at hf; cases hf
  obtain ⟨n, hn⟩ : ∃ n, w.toNat = n := ⟨_, rfl⟩
  obtain rfl : w = BitVec.ofNat 16 n := by rw [← hn, BitVec.ofNat_toNat, BitVec.setWidth_eq]
  rw [hn] at hf hle
  interval_cases n <;> cases hf <;>
    simp [Form.Encodes, encode, Instr.wf, Instr.operands]

/-- Every instruction is made by the form of some opcode word (30_encoding.md R78). -/
theorem exists_opcodeForm_makes (i : Instr) :
    ∃ (w : Word16) (f : Form), opcodeForm w.toNat = some f ∧ f.Makes i := by
  cases i with
  | halt => exact ⟨0, _, rfl, rfl⟩
  | set a b => exact ⟨1, _, rfl, a, b, rfl⟩
  | push a => exact ⟨2, _, rfl, a, rfl⟩
  | pop a => exact ⟨3, _, rfl, a, rfl⟩
  | eq a b c => exact ⟨4, _, rfl, a, b, c, rfl⟩
  | gt a b c => exact ⟨5, _, rfl, a, b, c, rfl⟩
  | jmp a => exact ⟨6, _, rfl, a, rfl⟩
  | jt a b => exact ⟨7, _, rfl, a, b, rfl⟩
  | jf a b => exact ⟨8, _, rfl, a, b, rfl⟩
  | add a b c => exact ⟨9, _, rfl, a, b, c, rfl⟩
  | mult a b c => exact ⟨10, _, rfl, a, b, c, rfl⟩
  | mod a b c => exact ⟨11, _, rfl, a, b, c, rfl⟩
  | and a b c => exact ⟨12, _, rfl, a, b, c, rfl⟩
  | or a b c => exact ⟨13, _, rfl, a, b, c, rfl⟩
  | not a b => exact ⟨14, _, rfl, a, b, rfl⟩
  | rmem a b => exact ⟨15, _, rfl, a, b, rfl⟩
  | wmem a b => exact ⟨16, _, rfl, a, b, rfl⟩
  | call a => exact ⟨17, _, rfl, a, rfl⟩
  | ret => exact ⟨18, _, rfl, rfl⟩
  | out a => exact ⟨19, _, rfl, a, rfl⟩
  | input a => exact ⟨20, _, rfl, a, rfl⟩
  | noop => exact ⟨21, _, rfl, rfl⟩

section
variable {w : Word16} {f : Form} {i : Instr} {ws rest : List Word16}

/-- The decoder goes on with what the opcode's form takes (30_encoding.md R84). -/
theorem decode_of_take {r : Instr × List Word16} (hf : opcodeForm w.toNat = some f)
    (ht : f.take ws = some r) : decode (w :: ws) = .ok r := by
  simp [decode, hf, ht]

/-- A form takes back the well-formed instruction whose words the encoder laid out. -/
theorem Form.take_encode (he : f.Encodes w) (hm : f.Makes i) (hi : i.wf = true)
    (rest : List Word16) :
    ∃ ws, encode i = w :: ws ∧ f.take (ws ++ rest) = some (i, rest) := by
  cases f with
  | f0 j =>
    obtain rfl := hm
    exact ⟨[], he.1, rfl⟩
  | f1 mk =>
    obtain ⟨a, rfl⟩ := hm
    obtain ⟨hw, hwf, -⟩ := he a
    exact ⟨_, hw, by simp [Form.take, decodeOperand_encodeOperand (hwf.1 hi)]⟩
  | f2 mk =>
    obtain ⟨a, b, rfl⟩ := hm
    obtain ⟨hw, hwf, -⟩ := he a b
    obtain ⟨ha, hb⟩ := hwf.1 hi
    exact ⟨_, hw, by simp [Form.take, decodeOperand_encodeOperand, ha, hb]⟩
  | f3 mk =>
    obtain ⟨a, b, c, rfl⟩ := hm
    obtain ⟨hw, hwf, -⟩ := he a b c
    obtain ⟨ha, hb, hc⟩ := hwf.1 hi
    exact ⟨_, hw, by simp [Form.take, decodeOperand_encodeOperand, ha, hb, hc]⟩

/-- What a form takes is a well-formed instruction, and the encoder lays the taken words out again. -/
theorem Form.encode_of_take (he : f.Encodes w) (ht : f.take ws = some (i, rest)) :
    i.wf = true ∧ w :: ws = encode i ++ rest := by
  cases f with
  | f0 j =>
    cases ht
    obtain ⟨hw, hwf, -⟩ := he
    exact ⟨hwf, by rw [hw]; rfl⟩
  | f1 mk =>
    rcases ws with _ | ⟨a, ws⟩ <;> cases ht
    obtain ⟨hw, hwf, -⟩ := he (decodeOperand a)
    exact ⟨by simp [hwf], by simp [hw]⟩
  | f2 mk =>
    rcases ws with _ | ⟨a, _ | ⟨b, ws⟩⟩ <;> cases ht
    obtain ⟨hw, hwf, -⟩ := he (decodeOperand a) (decodeOperand b)
    exact ⟨by simp [hwf], by simp [hw]⟩
  | f3 mk =>
    rcases ws with _ | ⟨a, _ | ⟨b, _ | ⟨c, ws⟩⟩⟩ <;> cases ht
    obtain ⟨hw, hwf, -⟩ := he (decodeOperand a) (decodeOperand b) (decodeOperand c)
    exact ⟨by simp [hwf], by simp [hw]⟩

/-- An instruction of a form begins with the form's opcode word and has as many operands as the form
counts (30_encoding.md R71). -/
theorem Form.head_and_count (he : f.Encodes w) (hm : f.Makes i) :
    (encode i).head? = some w ∧ i.operands.length = f.count := by
  cases f with
  | f0 j =>
    obtain rfl := hm
    obtain ⟨hw, -, hlen⟩ := he
    exact ⟨by rw [hw]; rfl, hlen⟩
  | f1 mk =>
    obtain ⟨a, rfl⟩ := hm
    obtain ⟨hw, -, hlen⟩ := he a
    exact ⟨by rw [hw]; rfl, hlen⟩
  | f2 mk =>
    obtain ⟨a, b, rfl⟩ := hm
    obtain ⟨hw, -, hlen⟩ := he a b
    exact ⟨by rw [hw]; rfl, hlen⟩
  | f3 mk =>
    obtain ⟨a, b, c, rfl⟩ := hm
    obtain ⟨hw, -, hlen⟩ := he a b c
    exact ⟨by rw [hw]; rfl, hlen⟩

/-- The opcode word of an instruction selects a form that counts its operands. -/
theorem opcodeForm_of_encode_head (h : (encode i).head? = some w) :
    ∃ f, opcodeForm w.toNat = some f ∧ i.operands.length = f.count := by
  obtain ⟨w', f, hf, hm⟩ := exists_opcodeForm_makes i
  obtain ⟨hhead, hcount⟩ := f.head_and_count (opcodeForm_encodes hf) hm
  obtain rfl : w' = w := Option.some.inj (hhead.symm.trans h)
  exact ⟨f, hf, hcount⟩

end

/-- Settles O1: the instruction is made by the form of its opcode word, and that form takes its
operand words back. -/
theorem decodeOfEncode : Obligations.DecodeOfEncode := by
  intro i rest hi
  obtain ⟨w, f, hf, hm⟩ := exists_opcodeForm_makes i
  obtain ⟨ws, hws, ht⟩ := Form.take_encode (opcodeForm_encodes hf) hm hi rest
  rw [hws, List.cons_append]
  exact decode_of_take hf ht

/-- Settles O2: a list that decodes is an opcode word and words that its form took, and the encoder
lays out the same words. -/
theorem encodeOfDecode : Obligations.EncodeOfDecode := by
  intro ws rest i h
  obtain ⟨w, ws', f, rfl, hf, ht⟩ := decode_ok h
  exact f.encode_of_take (opcodeForm_encodes hf) ht

/-- Settles O6: each list is the encoding of the instruction beside it, with nothing after it. -/
theorem encodingExamplesDecode : Obligations.EncodingExamplesDecode :=
  ⟨decodeOfEncode (.add (.register 0) (.literal 4) (.literal 5)) [] rfl,
    decodeOfEncode (.out (.register 0)) [] rfl,
    decodeOfEncode (.jt (.literal 0) (.literal 6)) [] rfl,
    decodeOfEncode .halt [] rfl,
    decodeOfEncode (.set (.register 7) (.literal 32767)) [] rfl,
    decodeOfEncode (.wmem (.register 1) (.register 2)) [] rfl,
    decodeOfEncode .noop [] rfl⟩

end Sys2Proof
end

section
/-! Memory as its reads (20_memory.md): the canonical list is fixed by the bytes it reads, and the
reset state, the load port and the program image in terms of the cells they leave. -/

namespace Sys2Proof.Machine

/-- An address below every entry reads as an unlisted one. -/
theorem readByte_eq_empty {m : List Host.Cell} {a : Nat} (h : ∀ c ∈ m, a < c.1) :
    readByte m a = emptyByte := by
  induction m with
  | nil => rfl
  | cons c rest ih =>
    obtain ⟨k, v⟩ := c
    have hk : a < k := h (k, v) (by simp)
    rw [readByte, if_neg hk.ne']
    exact ih fun c hc => h c (by simp [hc])

/-- The first entry of a canonical list is at the lowest address that does not read as empty: no other
canonical list with the same reads begins later. -/
theorem Memory.not_head_lt {k k' : Nat} {v v' : Byte} {m n : List Host.Cell}
    (hv : v ≠ emptyByte) (hn : ∀ c ∈ n, k' < c.1)
    (hread : readByte ((k, v) :: m) k = readByte ((k', v') :: n) k) : ¬ k < k' := by
  intro hlt
  have hempty : readByte ((k', v') :: n) k = emptyByte :=
    readByte_eq_empty (List.forall_mem_cons.2 ⟨hlt, fun c hc => hlt.trans (hn c hc)⟩)
  rw [hempty, readByte, if_pos rfl] at hread
  exact hv hread

/-- Settles O58, by induction on one list: the first entries agree, since each is at the lowest address
that does not read as empty, and the rests read the same. -/
theorem canonicalMemoryIsItsReads : Obligations.CanonicalMemoryIsItsReads := by
  intro m
  induction m with
  | nil =>
    rintro (_ | ⟨⟨k, v⟩, n⟩) - hn hread
    · rfl
    · obtain ⟨-, -, hv, -⟩ := (Memory.wf_cons k v n).1 hn
      have hk : emptyByte = v := by simpa [readByte] using hread k
      exact absurd hk.symm hv
  | cons c m ih =>
    obtain ⟨k, v⟩ := c
    rintro (_ | ⟨⟨k', v'⟩, n⟩) hm hn hread
    · obtain ⟨-, -, hv, -⟩ := (Memory.wf_cons k v m).1 hm
      have hk : v = emptyByte := by simpa [readByte] using hread k
      exact absurd hk hv
    · obtain ⟨hmk, -, hv, hm'⟩ := (Memory.wf_cons k v m).1 hm
      obtain ⟨hnk, -, hv', hn'⟩ := (Memory.wf_cons k' v' n).1 hn
      have hlt := Memory.not_head_lt hv hnk (hread k)
      have hgt := Memory.not_head_lt hv' hmk (hread k').symm
      obtain rfl : k = k' := by omega
      obtain rfl : v = v' := by simpa [readByte] using hread k
      have htail : ∀ a, readByte m a = readByte n a := by
        intro a
        by_cases ha : k = a
        · subst ha
          rw [readByte_eq_empty hmk, readByte_eq_empty hnk]
        · simpa [readByte, ha] using hread a
      rw [ih n hm' hn' htail]

/-! The reset state and the load port. -/

/-- Every register of the reset state holds 0 (decision D3). -/
@[simp] theorem State.readReg_reset (r : RegIx) : State.reset.readReg r = 0 :=
  Vector.getElem_replicate ..

/-- Every cell of the reset state reads 0 (decision D2). -/
@[simp] theorem State.readMem_reset (i : Nat) : State.reset.readMem i = 0 := readCell_nil i

/-- Settles O8: memory and registers by their reads, the other fields by the definition. -/
theorem resetStateValues : Obligations.ResetStateValues :=
  ⟨State.reset_pc, State.readReg_reset, rfl, rfl, State.readMem_reset, rfl, rfl, rfl, rfl⟩

/-- Settles O9: release takes every field but memory, configuration and answers from the reset
state. -/
theorem releasedResetKeepsOnlyMemory : Obligations.ReleasedResetKeepsOnlyMemory :=
  fun s => ⟨rfl, s.releaseReset_pc, State.readReg_reset, rfl, rfl, rfl, rfl, rfl, rfl⟩

/-- Settles O10: the port is a cell write under held reset, and nothing otherwise. -/
theorem loadPortWritesOnlyUnderReset : Obligations.LoadPortWritesOnlyUnderReset := by
  intro s i v
  constructor
  · intro h
    simp [State.loadPort, h]
  · intro h j
    simp only [State.loadPort, h, if_true, State.readMem]
    exact readCell_writeCell s.mem i.toNat v j

/-! The program image. -/

/-- The number of whole words in a list of bytes. -/
theorem wordsOfBytes_length (bs : List Byte) : (wordsOfBytes bs).length = bs.length / 2 := by
  induction bs using wordsOfBytes.induct with
  | case1 lo hi bs ih => simp only [wordsOfBytes, List.length_cons, ih]; omega
  | case2 b => simp [wordsOfBytes]
  | case3 => rfl

/-- Word k of a list of bytes is byte 2k + 256 * byte 2k+1 (20_memory.md R55). -/
theorem wordsOfBytes_getElem_toNat (bs : List Byte) (k : Nat)
    (h : k < (wordsOfBytes bs).length) :
    (wordsOfBytes bs)[k].toNat =
      (bs.getD (2 * k) 0).toNat + 256 * (bs.getD (2 * k + 1) 0).toNat := by
  induction bs using wordsOfBytes.induct generalizing k with
  | case1 lo hi bs ih =>
    cases k with
    | zero => exact wordOfBytes_toNat lo hi
    | succ k => exact ih k (Nat.lt_of_succ_lt_succ h)
  | case2 b => exact absurd h (Nat.not_lt_zero k)
  | case3 => exact absurd h (Nat.not_lt_zero k)

/-- No word of the image is out of range, byte by byte (70_reset_and_hazards.md R150). -/
theorem wordsOfBytes_inRange_iff (bs : List Byte) :
    (wordsOfBytes bs).any (fun w => decide (32775 < w.toNat)) = false ↔
      ∀ k < bs.length / 2,
        (bs.getD (2 * k) 0).toNat + 256 * (bs.getD (2 * k + 1) 0).toNat ≤ 32775 := by
  rw [List.any_eq_false, List.forall_mem_iff_getElem]
  simp only [decide_eq_true_eq, Nat.not_lt, wordsOfBytes_getElem_toNat, wordsOfBytes_length]

/-- An image loads exactly when no refusal applies, and then its words stand from index 0 on. -/
theorem loadImage_eq_ok_iff (image : List Byte) (m : List Host.Cell) :
    loadImage image = .ok m ↔
      (image.length % 2 = 0 ∧ (wordsOfBytes image).length ≤ 32768 ∧
        (wordsOfBytes image).any (fun w => decide (32775 < w.toNat)) = false) ∧
      m = writeCells [] 0 (wordsOfBytes image) := by
  unfold loadImage
  split_ifs with hodd hlong hrange
  · simp [hodd]
  · simp [Nat.not_le.2 hlong]
  · simp [hrange]
  · simp [Nat.mod_two_ne_one.1 hodd, Nat.not_lt.1 hlong, hrange, eq_comm]

/-- Settles O11: the three refusals in terms of bytes, and the loaded memory as cell writes into the
empty one. -/
theorem imageIsLoadedOrRefused : Obligations.ImageIsLoadedOrRefused := by
  intro image
  simp only [loadImage_eq_ok_iff, wordsOfBytes_inRange_iff, wordsOfBytes_length]
  refine ⟨by simp, ?_⟩
  rintro m ⟨⟨-, hlen, -⟩, rfl⟩
  refine ⟨Memory.wf_writeCells _ rfl (by rw [wordsOfBytes_length]; omega), fun k _ => ?_⟩
  rw [readCell_writeCells]
  by_cases hk : k < image.length / 2
  · simp [wordsOfBytes_length, hk, wordsOfBytes_getElem_toNat]
  · simp [wordsOfBytes_length, hk]

end Sys2Proof.Machine
end

section
/-! The instructions one by one (41_halt_noop.md to 48_io.md): an equation for each way an instruction
can end on operands that its roles accept, and the statements that put these into words. -/

namespace Sys2Proof.Machine

variable {s : State} {a b c : Operand}

/-- A Word keeps its number as a 16-bit value. -/
theorem word_setWidth_toNat (v : Word) : (v.setWidth 16).toNat = v.toNat :=
  BitVec.toNat_setWidth_of_le (by decide)

/-- A 16-bit value up to 32767 keeps its number as a Word. -/
theorem setWidth_word_toNat {v : Word16} (h : v.toNat ≤ 32767) : (v.setWidth 15).toNat = v.toNat := by
  rw [BitVec.toNat_setWidth]
  exact Nat.mod_eq_of_lt (by omega)

/-- Only a bounded capacity that the stack holds exactly makes it full (42_data_stack.md R109). -/
theorem State.stackFull_eq_true_iff (s : State) :
    s.stackFull = true ↔ s.cfg.stackCapacity = .bounded s.stack.length := by
  unfold State.stackFull
  cases s.cfg.stackCapacity with
  | unbounded => simp
  | bounded n => simpa using eq_comm

/-! What each instruction answers. -/

theorem exec_set_literal (v : Word) (b : Operand) (s : State) :
    exec (.set (.literal v) b) s = .next (s.faultedBy .destNotRegister) := rfl

theorem exec_push (ha : a.isSource = true) (hf : s.stackFull = false) :
    exec (.push a) s = .next ((s.push ((resolve a s).setWidth 16)).advance 2) := by
  simp [exec, execPush, withSrc_source ha, hf]

theorem exec_push_full (ha : a.isSource = true) (hf : s.stackFull = true) :
    exec (.push a) s = .next (s.faultedBy .stackOverflow) := by
  simp [exec, execPush, withSrc_source ha, hf]

theorem exec_pop (d : RegIx) {v : Word16} {rest : List Word16} (hs : s.stack = v :: rest)
    (hv : v.toNat ≤ 32767) :
    exec (.pop (.register d)) s =
      .next (((s.setStack rest).writeReg d (v.setWidth 15)).advance 2) := by
  simp [exec, execPop, hs, Nat.not_lt.2 hv]

theorem exec_pop_empty (d : RegIx) (hs : s.stack = []) :
    exec (.pop (.register d)) s = .next (s.faultedBy .stackUnderflow) := by
  simp [exec, execPop, hs]

theorem exec_pop_nonWord (d : RegIx) {v : Word16} {rest : List Word16} (hs : s.stack = v :: rest)
    (hv : 32767 < v.toNat) :
    exec (.pop (.register d)) s = .next (s.faultedBy .popValueNotWord) := by
  simp [exec, execPop, hs, hv]

theorem exec_jmp (ha : a.isSource = true) :
    exec (.jmp a) s = .next (s.setPc ((resolve a s).setWidth 16)) := by
  simp [exec, execJmp, withSrc_source ha]

theorem exec_jt (ha : a.isSource = true) (hb : b.isSource = true) :
    exec (.jt a b) s = .next (if wordTrue (resolve a s)
      then s.setPc ((resolve b s).setWidth 16) else s.advance 3) := by
  simp [exec, execJt, withSrc_source ha, withSrc_source hb]

theorem exec_jf (ha : a.isSource = true) (hb : b.isSource = true) :
    exec (.jf a b) s = .next (if wordTrue (resolve a s)
      then s.advance 3 else s.setPc ((resolve b s).setWidth 16)) := by
  simp [exec, execJf, withSrc_source ha, withSrc_source hb]

theorem exec_mod (d : RegIx) (hb : b.isSource = true) (hc : c.isSource = true)
    (h0 : resolve c s ≠ 0) :
    exec (.mod (.register d) b c) s =
      .next ((s.writeReg d (modWord (resolve b s) (resolve c s))).advance 4) := by
  simp only [exec, execMod, withDst_register, withSrc_source hb, withSrc_source hc, if_neg h0]

theorem exec_mod_zero (d : RegIx) (hb : b.isSource = true) (hc : c.isSource = true)
    (h0 : resolve c s = 0) :
    exec (.mod (.register d) b c) s = .next (s.faultedBy .divideByZero) := by
  simp [exec, execMod, withSrc_source hb, withSrc_source hc, h0]

theorem exec_rmem (d : RegIx) (hb : b.isSource = true)
    (hv : (s.readMem (resolve b s).toNat).toNat ≤ 32767) :
    exec (.rmem (.register d) b) s =
      .next ((s.writeReg d ((s.readMem (resolve b s).toNat).setWidth 15)).advance 3) := by
  simp [exec, execRmem, withSrc_source hb, Nat.not_lt.2 hv]

theorem exec_rmem_nonWord (d : RegIx) (hb : b.isSource = true)
    (hv : 32767 < (s.readMem (resolve b s).toNat).toNat) :
    exec (.rmem (.register d) b) s = .next (s.faultedBy .memoryWordNotValue) := by
  simp [exec, execRmem, withSrc_source hb, hv]

theorem exec_wmem (ha : a.isSource = true) (hb : b.isSource = true) :
    exec (.wmem a b) s =
      .next ((s.writeMem (wmemAddress a s) ((resolve b s).setWidth 16)).advance 3) := by
  simp [exec, execWmem, withSrc_source ha, withSrc_source hb]

theorem exec_call (ha : a.isSource = true) (hf : s.stackFull = false) :
    exec (.call a) s = .next ((s.push (s.pc + 2)).setPc ((resolve a s).setWidth 16)) := by
  simp [exec, execCall, withSrc_source ha, hf]

theorem exec_call_full (ha : a.isSource = true) (hf : s.stackFull = true) :
    exec (.call a) s = .next (s.faultedBy .stackOverflow) := by
  simp [exec, execCall, withSrc_source ha, hf]

theorem exec_ret {v : Word16} {rest : List Word16} (hs : s.stack = v :: rest) :
    exec .ret s = .next ((s.setStack rest).setPc v) := by
  simp [exec, execRet, hs]

theorem exec_ret_empty (hs : s.stack = []) : exec .ret s = .next s.haltedAtEnd := by
  simp [exec, execRet, hs]

theorem exec_out (ha : a.isSource = true) :
    exec (.out a) s = .next ((s.emit (.emitOut (resolve a s))).advance 2) := by
  simp [exec, execOut, withSrc_source ha]

theorem exec_input (d : RegIx) (s : State) :
    exec (.input (.register d)) s = .next ((s.setRun (.waitInput d)).emit .awaitIn) := rfl

/-! The statements. -/

/-- Settles O18: the meaning of `halt` sets the run state and the sentinel pc. -/
theorem haltHaltsAtSentinel : Obligations.HaltHaltsAtSentinel := ⟨rfl, fun _ => rfl⟩

/-- Settles O19: the meaning of `noop` is the default advance. -/
theorem noopOnlyAdvances : Obligations.NoopOnlyAdvances := ⟨rfl, fun _ => rfl⟩

/-- Settles O20: `set` is the one-source instruction whose function is the identity. -/
theorem setCopiesItsSource : Obligations.SetCopiesItsSource := by
  intro s d b hb
  exact ⟨rfl, ⟨_, unaryOp_completes id d hb s, by simp, s.onlyRegister_writeReg_advance d _ 3⟩,
    fun v => exec_set_literal v b s⟩

/-- Settles O21: on each of the two ranges the raw word has one form, whose value is the literal's own
or the register's content. -/
theorem resolveReadsLiteralOrRegister : Obligations.ResolveReadsLiteralOrRegister := by
  intro s w _
  constructor
  · intro hlit
    rw [decodeOperand_literal hlit]
    exact Nat.mod_eq_of_lt hlit
  · intro r hr
    have hlt := r.isLt
    obtain rfl : w = encodeOperand (.register r) :=
      BitVec.eq_of_toNat_eq (by rw [hr, encodeOperand_register_toNat])
    rw [decodeOperand_encodeOperand rfl]
    rfl

/-- Settles O22: the state after `push`, field by field. -/
theorem pushPutsSourceOnTop : Obligations.PushPutsSourceOnTop := by
  intro s a ha hf
  exact ⟨rfl, _, _, exec_push ha hf, rfl, word_setWidth_toNat _, rfl, fun _ => rfl, fun _ => rfl, rfl,
    ⟨rfl, rfl, rfl⟩, rfl⟩

/-- Settles O23: at exactly the bounded capacity the stack is full, and the check after the operand's
raises the fault. -/
theorem fullStackFaultsPushAndCall : Obligations.FullStackFaultsPushAndCall := by
  intro s a ha
  refine ⟨fun n hcap hlen => ?_, fun hcap => ?_, fun n hcap hlen => ?_⟩
  · have hf : s.stackFull = true := s.stackFull_eq_true_iff.2 (by rw [hcap, hlen])
    simp only [List.forall_mem_cons]
    exact ⟨exec_push_full ha hf, exec_call_full ha hf, by simp⟩
  · simp [State.stackFull, hcap]
  · simp [State.stackFull, hcap, hlen]

/-- Settles O24: the state after `pop`, field by field. -/
theorem popTakesTheTop : Obligations.PopTakesTheTop := by
  intro s d v rest hs hv
  refine ⟨rfl, _, exec_pop d hs hv, ?_, rfl, rfl, fun q hq => ?_, fun _ => rfl, rfl,
    ⟨rfl, rfl, rfl⟩, rfl⟩
  · rw [State.readReg_advance, State.readReg_writeReg_self, setWidth_word_toNat hv]
  · exact State.readReg_writeReg_ne _ _ hq

/-- Settles O25: the two checks of `pop` on the stack. -/
theorem popFaultsOnEmptyOrNonWord : Obligations.PopFaultsOnEmptyOrNonWord :=
  fun _ d => ⟨exec_pop_empty d, fun _ _ hs hv => exec_pop_nonWord d hs hv⟩

/-- Setting the pc meets the frame of the jumps. -/
theorem State.onlyPc_setPc (s : State) (v : Word16) : OnlyPc s (s.setPc v) :=
  ⟨fun _ => rfl, fun _ => rfl, rfl, rfl, ⟨rfl, rfl, rfl⟩, rfl⟩

/-- So does the default advance. -/
theorem State.onlyPc_advance (s : State) (n : Nat) : OnlyPc s (s.advance n) :=
  ⟨fun _ => rfl, fun _ => rfl, rfl, rfl, ⟨rfl, rfl, rfl⟩, rfl⟩

/-- Settles O28: `jmp` sets the pc to the number of its target. -/
theorem jmpGoesToItsTarget : Obligations.JmpGoesToItsTarget := by
  intro s a ha
  exact ⟨rfl, _, exec_jmp ha, word_setWidth_toNat _, s.onlyPc_setPc _⟩

/-- The condition of a jump in numbers (44_branch.md R114). -/
theorem wordTrue_eq_true_iff (v : Word) : wordTrue v = true ↔ v.toNat ≠ 0 := by
  simp [wordTrue, BitVec.toNat_eq]

/-- Settles O29: by the condition; whichever branch a jump takes, it sets the pc alone. -/
theorem jtAndJfTestAgainstZero : Obligations.JtAndJfTestAgainstZero := by
  intro s a b ha hb
  refine ⟨rfl, rfl, _, _, exec_jt ha hb, exec_jf ha hb, ?_⟩
  have hcond := wordTrue_eq_true_iff (resolve a s)
  by_cases h : wordTrue (resolve a s) = true
  · simp only [if_pos h]
    exact ⟨s.onlyPc_setPc _, s.onlyPc_advance 3, fun _ => ⟨word_setWidth_toNat _, rfl⟩,
      fun h0 => absurd h0 (hcond.1 h)⟩
  · simp only [if_neg h]
    exact ⟨s.onlyPc_advance 3, s.onlyPc_setPc _, fun hn => absurd (hcond.2 hn) h,
      fun _ => ⟨rfl, word_setWidth_toNat _⟩⟩

/-- The remainder is below 32768 and loses nothing in 15 bits (45_alu.md R116). -/
theorem modWord_toNat (b c : Word) : (modWord b c).toNat = b.toNat % c.toNat :=
  Nat.mod_eq_of_lt ((Nat.mod_le _ _).trans_lt b.isLt)

/-- Settles O32: by the divisor. -/
theorem modWritesRemainderOrFaults : Obligations.ModWritesRemainderOrFaults := by
  intro s d b c hb hc
  refine ⟨rfl, fun hne => ?_, fun h0 => exec_mod_zero d hb hc (BitVec.eq_of_toNat_eq h0)⟩
  have hne' : resolve c s ≠ 0 := fun h => hne (by rw [h]; rfl)
  exact ⟨_, exec_mod d hb hc hne', by simp [modWord_toNat],
    s.onlyRegister_writeReg_advance d _ 4⟩

/-- Settles O36: by the cell at the address. -/
theorem rmemReadsCellOrFaults : Obligations.RmemReadsCellOrFaults := by
  intro s d b hb
  refine ⟨rfl, fun hv => ⟨_, exec_rmem d hb hv, ?_, s.onlyRegister_writeReg_advance d _ 3⟩,
    exec_rmem_nonWord d hb⟩
  rw [State.readReg_advance, State.readReg_writeReg_self, setWidth_word_toNat hv]

/-- A cell read after a cell write of a state. -/
theorem State.readMem_writeMem (s : State) (i : Nat) (v : Word16) (j : Nat) :
    (s.writeMem i v).readMem j = if j = i then v else s.readMem j :=
  readCell_writeCell s.mem i v j

/-- Settles O37: the cell at the address reads back the value, and a cell write leaves every other
byte. -/
theorem wmemWritesOneCell : Obligations.WmemWritesOneCell := by
  intro s a b ha hb
  refine ⟨rfl, rfl, _, exec_wmem ha hb, ?_, fun x hx => readByte_writeCell_ne s.mem _ _ hx, rfl,
    fun _ => rfl, rfl, rfl, ⟨rfl, rfl, rfl⟩, rfl⟩
  calc (((s.writeMem (wmemAddress a s) ((resolve b s).setWidth 16)).advance 3).readMem
        (wmemAddress a s)).toNat
      = ((resolve b s).setWidth 16).toNat :=
        congrArg BitVec.toNat ((s.readMem_writeMem _ _ _).trans (if_pos rfl))
    _ = (resolve b s).toNat := word_setWidth_toNat _

/-- Settles O38: the state after `call`, field by field. -/
theorem callPushesReturnAddress : Obligations.CallPushesReturnAddress := by
  intro s a ha hf
  exact ⟨rfl, _, exec_call ha hf, rfl, word_setWidth_toNat _, fun _ => rfl, fun _ => rfl, rfl,
    ⟨rfl, rfl, rfl⟩, rfl⟩

/-- Settles O39: by the stack. -/
theorem retPopsOrHalts : Obligations.RetPopsOrHalts :=
  ⟨rfl, fun _ => ⟨fun _ _ hs => exec_ret hs, exec_ret_empty⟩⟩

/-- Settles O40: the one event, then the advance. -/
theorem outEmitsTheWholeWord : Obligations.OutEmitsTheWholeWord :=
  fun _ _ ha => ⟨rfl, exec_out ha⟩

/-- Settles O41: with the destination check passed, the meaning of `in` sets the run state and makes
the event. -/
theorem inputWaitsAtItsPc : Obligations.InputWaitsAtItsPc :=
  fun s d => ⟨rfl, exec_input d s⟩

/-! Two instructions one after the other. -/

/-- Settles O49: the top that `pop` finds is the Word that `push` left, and widening it lost
nothing. -/
theorem popAfterPushYieldsTheValue : Obligations.PopAfterPushYieldsTheValue := by
  intro s a d ha hf
  have hv : ((resolve a s).setWidth 16).toNat = (resolve a s).toNat := word_setWidth_toNat _
  have hle : ((resolve a s).setWidth 16).toNat ≤ 32767 := by
    have := (resolve a s).isLt
    omega
  refine ⟨_, _, exec_push ha hf, exec_pop d rfl hle, ?_, rfl, rfl⟩
  rw [State.readReg_advance, State.readReg_writeReg_self]
  exact BitVec.eq_of_toNat_eq ((setWidth_word_toNat hle).trans hv)

/-- Settles O50: the top of the stack that `call` left is its own pc + 2. -/
theorem retAfterCallResumes : Obligations.RetAfterCallResumes := by
  intro s t u a ha hf hcall hstack
  rw [exec_call ha hf] at hcall
  cases hcall
  exact exec_ret hstack

/-- The words of the next fetch that lie in memory are the cells there (30_encoding.md R70). -/
theorem fetchWords_getElem? (s : State) {k : Nat} (hk : k < 4) (h : s.pc.toNat + k < 32768) :
    (fetchWords s)[k]? = some (s.readMem (s.pc.toNat + k)) := by
  have hlen : k < (fetchWords s).length := by rw [fetchWords_length]; omega
  rw [List.getElem?_eq_getElem hlen, fetchWords_getElem]

/-- Settles O51: the fetch reads the memory that the store wrote. -/
theorem nextFetchSeesTheStore : Obligations.NextFetchSeesTheStore := by
  intro s t a b ha hb hexec k hk hlt
  rw [exec_wmem ha hb] at hexec
  cases hexec
  rw [fetchWords_getElem? _ hk hlt]
  exact congrArg some (s.readMem_writeMem _ _ _)

end Sys2Proof.Machine
end

section
/-! The operand check of every instruction (40_cycle.md R95): the first operand word in the order
a, b, c that its role does not accept raises its fault. -/

namespace Sys2Proof.Machine

/-- The check of a well-formed operand's tag is the check of its raw word (30_encoding.md R81, R82). -/
theorem checkWord_encodeOperand (role : Role) {o : Operand} (ho : o.wf = true) :
    checkWord role (encodeOperand o) = operandFault role o := by
  cases o with
  | literal v =>
    have hv := v.isLt
    cases role
    · exact if_pos (by rw [encodeOperand_literal_toNat]; omega)
    · exact if_neg (by rw [encodeOperand_literal_toNat]; omega)
  | register r =>
    have hr := r.isLt
    cases role
    · rw [checkWord, if_neg (by rw [encodeOperand_register_toNat]; omega),
        if_neg (by rw [encodeOperand_register_toNat]; omega), operandFault]
    · exact if_neg (by rw [encodeOperand_register_toNat]; omega)
  | invalid w =>
    have hw : 32775 < w.toNat := of_decide_eq_true ho
    cases role
    · rw [checkWord, encodeOperand, if_neg (by omega), if_pos hw, operandFault]
    · exact if_pos hw

/-- The first fault of a list of operands with their roles, in the words of `operandFault`. -/
def operandsFault (ops : List (Role × Operand)) : Option FaultCause :=
  ops.findSome? fun o => operandFault o.1 o.2

/-- On well-formed operands the checks of tags and of raw words find the same first fault. -/
theorem operandsFault_eq_checkWord {ops : List (Role × Operand)}
    (hwf : ∀ o ∈ ops, o.2.wf = true) :
    operandsFault ops = ops.findSome? fun o => checkWord o.1 (encodeOperand o.2) := by
  induction ops with
  | nil => rfl
  | cons o ops ih =>
    obtain ⟨ho, hops⟩ := List.forall_mem_cons.1 hwf
    rw [operandsFault, List.findSome?_cons, List.findSome?_cons, checkWord_encodeOperand o.1 ho,
      ← ih hops, operandsFault]

section
variable {o : Operand} {ops : List (Role × Operand)} {s : State} {cause : FaultCause}

/-- A destination check takes the first fault of its operand and the later ones, if they take theirs. -/
theorem withDst_operandsFault {k : RegIx → Result}
    (h : operandsFault ((.dst, o) :: ops) = some cause)
    (hk : operandsFault ops = some cause → ∀ d, k d = .next (s.faultedBy cause)) :
    withDst o s k = .next (s.faultedBy cause) := by
  rw [operandsFault, List.findSome?_cons] at h
  rcases withDst_cases o s k with ⟨c, hc, hw⟩ | ⟨d, rfl, hw⟩
  · simp only [hc, Option.some.injEq] at h
    rw [hw, h]
  · exact hw.trans (hk h d)

/-- A source check takes the first fault of its operand and the later ones, if they take theirs. -/
theorem withSrc_operandsFault {k : Word → Result}
    (h : operandsFault ((.src, o) :: ops) = some cause)
    (hk : operandsFault ops = some cause → ∀ v, k v = .next (s.faultedBy cause)) :
    withSrc o s k = .next (s.faultedBy cause) := by
  rw [operandsFault, List.findSome?_cons] at h
  rcases withSrc_cases o s k with ⟨c, hc, hw⟩ | ⟨ho, hw⟩
  · simp only [hc, Option.some.injEq] at h
    rw [hw, h]
  · simp only [(operandFault_src_eq_none o).2 ho] at h
    exact hw.trans (hk h _)

/-! The shapes of checks that the meanings nest; after the last check no operand fault is left. -/

theorem withDst_only {k : RegIx → Result} (h : operandsFault [(.dst, o)] = some cause) :
    withDst o s k = .next (s.faultedBy cause) :=
  withDst_operandsFault h nofun

theorem withSrc_only {k : Word → Result} (h : operandsFault [(.src, o)] = some cause) :
    withSrc o s k = .next (s.faultedBy cause) :=
  withSrc_operandsFault h nofun

theorem withSrc_withSrc {b : Operand} {k : Word → Word → Result}
    (h : operandsFault [(.src, o), (.src, b)] = some cause) :
    (withSrc o s fun v => withSrc b s (k v)) = .next (s.faultedBy cause) :=
  withSrc_operandsFault h fun h _ => withSrc_only h

theorem withDst_withSrc {b : Operand} {k : RegIx → Word → Result}
    (h : operandsFault [(.dst, o), (.src, b)] = some cause) :
    (withDst o s fun d => withSrc b s (k d)) = .next (s.faultedBy cause) :=
  withDst_operandsFault h fun h _ => withSrc_only h

theorem withDst_withSrc_withSrc {b c : Operand} {k : RegIx → Word → Word → Result}
    (h : operandsFault [(.dst, o), (.src, b), (.src, c)] = some cause) :
    (withDst o s fun d => withSrc b s fun v => withSrc c s (k d v)) =
      .next (s.faultedBy cause) :=
  withDst_operandsFault h fun h _ => withSrc_withSrc h

end

/-- Every instruction checks its operands in the order of the role table before anything else. -/
theorem exec_of_operandsFault {i : Instr} {s : State} {cause : FaultCause}
    (h : operandsFault i.operands = some cause) : exec i s = .next (s.faultedBy cause) := by
  cases i with
  | halt => cases h
  | set a b => exact withDst_withSrc h
  | push a =>
    unfold exec execPush
    exact withSrc_only h
  | pop a => exact withDst_only h
  | eq a b c => exact withDst_withSrc_withSrc h
  | gt a b c => exact withDst_withSrc_withSrc h
  | jmp a =>
    unfold exec execJmp
    exact withSrc_only h
  | jt a b =>
    unfold exec execJt
    exact withSrc_withSrc h
  | jf a b =>
    unfold exec execJf
    exact withSrc_withSrc h
  | add a b c => exact withDst_withSrc_withSrc h
  | mult a b c => exact withDst_withSrc_withSrc h
  | mod a b c => exact withDst_withSrc_withSrc h
  | and a b c => exact withDst_withSrc_withSrc h
  | or a b c => exact withDst_withSrc_withSrc h
  | not a b => exact withDst_withSrc h
  | rmem a b => exact withDst_withSrc h
  | wmem a b =>
    unfold exec execWmem
    exact withSrc_withSrc h
  | call a =>
    unfold exec execCall
    exact withSrc_only h
  | ret => cases h
  | out a =>
    unfold exec execOut
    exact withSrc_only h
  | input a => exact withDst_only h
  | noop => cases h

/-- Settles O42: the raw-word checks find the fault that the nested operand checks raise. -/
theorem operandsAreCheckedInOrder : Obligations.OperandsAreCheckedInOrder := by
  intro i s cause hi h
  have hwf : ∀ o ∈ i.operands, o.2.wf = true := List.all_eq_true.1 hi
  exact exec_of_operandsFault ((operandsFault_eq_checkWord hwf).trans h)

end Sys2Proof.Machine
end

section
/-! What an instruction changes (40_cycle.md R95 to R97). The twenty-two effects fall into a dozen kinds
of change, and the rules about all instructions are read off those. -/

namespace Sys2Proof.Machine

/-- The kinds of change an instruction can make. -/
inductive Change (s : State) : Instr → State → Prop where
  /-- A fault is taken: the run state alone (60_exceptions.md R134). -/
  | fault {i : Instr} (cause : FaultCause) : Change s i (s.faultedBy cause)
  /-- A result goes to the destination register, and the pc passes the instruction's words. -/
  | write {i : Instr} {d : RegIx} (v : Word) (hd : destination i = some d)
      (hi : ∀ a, i ≠ .input a) :
      Change s i ((s.writeReg d v).advance (encode i).length)
  /-- The pc passes the instruction's words: `noop`, and a jump that is not taken. -/
  | pass {i : Instr} : Change s i (s.advance (encode i).length)
  /-- A jump is taken. -/
  | jump {i : Instr} (target : Word) (hi : ∃ a b, i = .jmp a ∨ i = .jt a b ∨ i = .jf a b) :
      Change s i (s.setPc (target.setWidth 16))
  | push (a : Operand) (v : Word) (hfull : s.stackFull = false) :
      Change s (.push a) ((s.push (v.setWidth 16)).advance 2)
  | pop (d : RegIx) {v : Word16} {rest : List Word16} (hs : s.stack = v :: rest) :
      Change s (.pop (.register d)) (((s.setStack rest).writeReg d (v.setWidth 15)).advance 2)
  | wmem (a b : Operand) (v : Word) :
      Change s (.wmem a b) ((s.writeMem (wmemAddress a s) (v.setWidth 16)).advance 3)
  | call (a : Operand) (target : Word) (hfull : s.stackFull = false) :
      Change s (.call a) ((s.push (s.pc + 2)).setPc (target.setWidth 16))
  | ret {v : Word16} {rest : List Word16} (hs : s.stack = v :: rest) :
      Change s .ret ((s.setStack rest).setPc v)
  /-- A normal halt: `halt`, and `ret` on the empty stack (10_state.md R34). -/
  | halt {i : Instr} (hi : i = .halt ∨ i = .ret ∧ s.stack = []) : Change s i s.haltedAtEnd
  | out (a : Operand) : Change s (.out a) ((s.emit (.emitOut (resolve a s))).advance 2)
  | input (d : RegIx) :
      Change s (.input (.register d)) ((s.setRun (.waitInput d)).emit .awaitIn)

variable {i : Instr} {s t : State}

/-- The effect of every instruction is a change of one of the kinds. -/
theorem Effect.change (h : Effect i s t) : Change s i t := by
  cases i with
  | halt => obtain rfl := h; exact .halt (.inl rfl)
  | set a b => obtain ⟨d, rfl, -, rfl⟩ := h; exact .write _ rfl nofun
  | push a => obtain ⟨-, hf, rfl⟩ := h; exact .push a _ hf
  | pop a => obtain ⟨d, v, rest, rfl, hs, -, rfl⟩ := h; exact .pop d hs
  | eq a b c => obtain ⟨d, rfl, -, -, rfl⟩ := h; exact .write _ rfl nofun
  | gt a b c => obtain ⟨d, rfl, -, -, rfl⟩ := h; exact .write _ rfl nofun
  | jmp a => obtain ⟨-, rfl⟩ := h; exact .jump _ ⟨a, a, .inl rfl⟩
  | jt a b =>
    obtain ⟨-, -, rfl⟩ := h
    split
    · exact .jump _ ⟨a, b, .inr (.inl rfl)⟩
    · exact .pass
  | jf a b =>
    obtain ⟨-, -, rfl⟩ := h
    split
    · exact .pass
    · exact .jump _ ⟨a, b, .inr (.inr rfl)⟩
  | add a b c => obtain ⟨d, rfl, -, -, rfl⟩ := h; exact .write _ rfl nofun
  | mult a b c => obtain ⟨d, rfl, -, -, rfl⟩ := h; exact .write _ rfl nofun
  | mod a b c => obtain ⟨d, rfl, -, -, -, rfl⟩ := h; exact .write _ rfl nofun
  | and a b c => obtain ⟨d, rfl, -, -, rfl⟩ := h; exact .write _ rfl nofun
  | or a b c => obtain ⟨d, rfl, -, -, rfl⟩ := h; exact .write _ rfl nofun
  | not a b => obtain ⟨d, rfl, -, rfl⟩ := h; exact .write _ rfl nofun
  | rmem a b => obtain ⟨d, rfl, -, -, rfl⟩ := h; exact .write _ rfl nofun
  | wmem a b => obtain ⟨-, -, rfl⟩ := h; exact .wmem a b _
  | call a => obtain ⟨-, hf, rfl⟩ := h; exact .call a _ hf
  | ret =>
    rcases h with ⟨hs, rfl⟩ | ⟨v, rest, hs, rfl⟩
    · exact .halt (.inr ⟨rfl, hs⟩)
    · exact .ret hs
  | out a => obtain ⟨-, rfl⟩ := h; exact .out a
  | input a => obtain ⟨d, rfl, rfl⟩ := h; exact .input d
  | noop => obtain rfl := h; exact .pass

/-- Whatever an instruction answers is a change of one of the kinds. -/
theorem exec_change (h : exec i s = .next t) : Change s i t := by
  rcases exec_next h with ⟨cause, rfl⟩ | he
  · exact .fault cause
  · exact he.change

/-- Settles O43: every change but a fault leaves the run state or sets it to Halted or WaitInput, and
the fault's record is the one `raiseFault` makes. -/
theorem faultsArePrecise : Obligations.FaultsArePrecise := by
  intro i s t f hrun hexec hfault
  have hne : s.run ≠ .faulted f := by simp [hrun]
  cases exec_change hexec with
  | fault cause =>
    obtain rfl := (s.faultedBy_run_eq cause f).1 hfault
    exact ⟨rfl, rfl, rfl⟩
  | halt hi => exact absurd hfault nofun
  | input d => exact absurd hfault nofun
  | _ => exact absurd hfault hne

/-- Settles O44: the two kinds of change that write a register write the destination's. -/
theorem onlyDestinationRegisterChanges : Obligations.OnlyDestinationRegisterChanges := by
  intro i s t hexec
  have hframe (hregs : SameRegs s t) : (∀ q, destination i ≠ some q → t.readReg q = s.readReg q) ∧
      ((∃ a, i = .input a) → SameRegs s t) := ⟨fun q _ => hregs q, fun _ => hregs⟩
  cases exec_change hexec with
  | write v hd hi =>
    refine ⟨fun q hq => ?_, fun ⟨a, ha⟩ => absurd ha (hi a)⟩
    exact State.readReg_writeReg_ne s v fun h => hq (h ▸ hd)
  | pop d hs =>
    refine ⟨fun q hq => ?_, nofun⟩
    exact State.readReg_writeReg_ne _ _ fun h => hq (h ▸ rfl)
  | _ => exact hframe fun _ => rfl

/-- Memory stays, or the instruction is `wmem` and writes one Word to the cell at its address. -/
theorem exec_mem (h : exec i s = .next t) :
    t.mem = s.mem ∨ ∃ a b, ∃ v : Word, i = .wmem a b ∧
      t.mem = writeCell s.mem (wmemAddress a s) (v.setWidth 16) := by
  cases exec_change h with
  | wmem a b v => exact .inr ⟨a, b, v, rfl, rfl⟩
  | _ => exact .inl rfl

/-- Settles O45: memory stays or is one cell write of a `wmem`, which leaves every other byte. -/
theorem onlyWmemWritesMemory : Obligations.OnlyWmemWritesMemory := by
  intro i s t hexec
  rcases exec_mem hexec with hmem | ⟨a, b, v, rfl, hmem⟩
  · exact ⟨fun _ _ _ x _ => by rw [hmem], fun _ x => by rw [hmem]⟩
  · refine ⟨fun a' b' hi x hx => ?_, fun h => absurd rfl (h a b)⟩
    cases hi
    rw [hmem, readByte_writeCell_ne _ _ _ hx]

/-- Settles O46: the four kinds of change that touch the stack, each by its top entry. -/
theorem onlyFourInstructionsTouchStack : Obligations.OnlyFourInstructionsTouchStack := by
  intro i s t hexec
  cases exec_change hexec with
  | push a v hfull => exact .inr (.inl ⟨a, _, .inl rfl, rfl⟩)
  | call a target hfull => exact .inr (.inl ⟨a, _, .inr rfl, rfl⟩)
  | pop d hs => exact .inr (.inr ⟨_, .inr ⟨_, rfl⟩, hs⟩)
  | ret hs => exact .inr (.inr ⟨_, .inl rfl, hs⟩)
  | _ => exact .inl rfl

/-- No change touches an input of the block (10_state.md §8). -/
theorem Change.sameInputs (h : Change s i t) : SameInputs s t := by
  cases h <;> exact ⟨rfl, rfl, rfl⟩

/-- Settles O47: no change touches an input, and two kinds of change make one event each. -/
theorem onlyIoMakesEvents : Obligations.OnlyIoMakesEvents := by
  intro i s t hexec
  have hchange := exec_change hexec
  refine ⟨hchange.sameInputs, ?_⟩
  cases hchange with
  | out a => exact .inr (.inl ⟨a, rfl, rfl⟩)
  | input d => exact .inr (.inr ⟨_, rfl, rfl⟩)
  | _ => exact .inl rfl

/-- Settles O48: among the changes from Running to Running, those that set the pc are of the excluded
instructions, and the others pass the instruction's words. -/
theorem pcAdvancesByLength : Obligations.PcAdvancesByLength := by
  intro i s t hexec hs ht hjump hret
  cases exec_change hexec with
  | write v hd hi => rfl
  | pass => rfl
  | push a v hfull => rfl
  | pop d hs => rfl
  | wmem a b v => rfl
  | out a => rfl
  | jump target hi =>
    obtain ⟨a, b, h⟩ := hi
    obtain ⟨hjmp, hjt, hjf, -⟩ := hjump a b
    rcases h with h | h | h
    · exact absurd h hjmp
    · exact absurd h hjt
    · exact absurd h hjf
  | call a target hfull =>
    obtain ⟨-, -, -, hcall⟩ := hjump a a
    exact absurd rfl hcall
  | ret hs => exact absurd rfl hret
  | fault cause => cases ht
  | halt hi => cases ht
  | input d => cases ht

end Sys2Proof.Machine
end

section
/-! The step (40_cycle.md R90 to R98): what it answers in each case of the fetch and of the run state,
and all the ways it can go on. -/

namespace Sys2Proof.Machine

variable {s t : State} {i : Instr} {rest : List Word16}

/-! The fetch. -/

/-- An instruction has at most four words (30_encoding.md R72). -/
theorem encode_length_le_four (i : Instr) : (encode i).length ≤ 4 := by
  cases i <;> simp [encode]

/-- Words that stand from the pc on are the first ones the decoder is given. -/
theorem fetchWords_of_holdsAtPc {ws : List Word16} (h : s.holdsAtPc ws) (hlen : ws.length ≤ 4) :
    ∃ rest, fetchWords s = ws ++ rest := by
  obtain ⟨hfit, hcells⟩ := h
  have hl := fetchWords_length s
  refine ⟨(fetchWords s).drop ws.length, ?_⟩
  have htake : (fetchWords s).take ws.length = ws := by
    refine List.ext_getElem (by rw [List.length_take]; omega) fun k _ hk => ?_
    rw [List.getElem_take, fetchWords_getElem, hcells k hk]
  calc fetchWords s
      = (fetchWords s).take ws.length ++ (fetchWords s).drop ws.length :=
        (List.take_append_drop ..).symm
    _ = ws ++ (fetchWords s).drop ws.length := by rw [htake]

/-- The words of an instruction that the decoder found at the pc stand there. -/
theorem holdsAtPc_of_decode (hd : decode (fetchWords s) = .ok (i, rest)) :
    s.holdsAtPc (encode i) := by
  obtain ⟨-, hws⟩ := encodeOfDecode _ _ _ hd
  have hl := fetchWords_length s
  have hlen := encode_length i
  rw [hws, List.length_append] at hl
  refine ⟨by omega, fun k hk => ?_⟩
  rw [← fetchWords_getElem s k (by rw [hws, List.length_append]; omega)]
  simp only [hws, List.getElem_append_left hk]

/-- Where an instruction's words stand, the pc lies in memory. -/
theorem State.holdsAtPc.pc_lt (h : s.holdsAtPc (encode i)) : s.pc.toNat < 32768 := by
  obtain ⟨hfit, -⟩ := h
  have hlen := encode_length i
  omega

/-- With the pc outside memory the decoder is given no word. -/
theorem decode_fetchWords_outside (h : 32768 ≤ s.pc.toNat) :
    decode (fetchWords s) = .error .noWord := by
  have hnil : fetchWords s = [] :=
    List.length_eq_zero_iff.1 (by rw [fetchWords_length]; omega)
  rw [hnil]
  rfl

theorem pc_ne_end_of_lt (h : s.pc.toNat < 32768) : s.pc ≠ 32768 := by
  intro he
  rw [he] at h
  exact absurd h (by decide)

/-! What the step of a running core answers, case by case. -/

theorem stepRunning_of_decode (hpc : s.pc.toNat < 32768)
    (hd : decode (fetchWords s) = .ok (i, rest)) : stepRunning s = exec i s := by
  rw [stepRunning, if_neg (pc_ne_end_of_lt hpc), hd]

theorem stepRunning_of_unknown (hpc : s.pc.toNat < 32768)
    (hw : 21 < (s.readMem s.pc.toNat).toNat) :
    stepRunning s = unknownOpcode (s.readMem s.pc.toNat) s := by
  obtain ⟨ws, hws⟩ := fetchWords_cons hpc
  rw [stepRunning, if_neg (pc_ne_end_of_lt hpc), hws, decode_unknown hw]

theorem stepRunning_of_missing (hpc : s.pc.toNat < 32768) {f : Form}
    (hf : opcodeForm (s.readMem s.pc.toNat).toNat = some f) (hend : 32767 < s.pc.toNat + f.count) :
    stepRunning s = .next (s.faultedBy .operandFetchOutOfRange) := by
  obtain ⟨ws, hws⟩ := fetchWords_cons hpc
  have hl := fetchWords_length s
  rw [hws, List.length_cons] at hl
  rw [stepRunning, if_neg (pc_ne_end_of_lt hpc), hws, decode_missing hf (by omega)]
  rfl

theorem unknownOpcode_skip (w : Word16) (h : s.cfg.unknownOpcode = .skip) :
    unknownOpcode w s = .next ((s.emit (.reportUnknown s.pc w)).advance 1) := by
  rw [unknownOpcode, h]

theorem unknownOpcode_fault (w : Word16) (h : s.cfg.unknownOpcode = .fault) :
    unknownOpcode w s = .next (s.faultedBy .unknownOpcode) := by
  rw [unknownOpcode, h, raiseFault]

/-- Both policies go on. -/
theorem unknownOpcode_cases (w : Word16) (s : State) :
    unknownOpcode w s = .next ((s.emit (.reportUnknown s.pc w)).advance 1) ∨
      unknownOpcode w s = .next (s.faultedBy .unknownOpcode) := by
  cases h : s.cfg.unknownOpcode with
  | skip => exact .inl (unknownOpcode_skip w h)
  | fault => exact .inr (unknownOpcode_fault w h)

/-- Settles O12: the decoder gives the instruction back from the words at the pc. -/
theorem stepRunsDecodedInstruction : Obligations.StepRunsDecodedInstruction := by
  intro s i hready hwf hholds
  obtain ⟨rest, hws⟩ := fetchWords_of_holdsAtPc hholds (encode_length_le_four i)
  have hd : decode (fetchWords s) = .ok (i, rest) := hws ▸ decodeOfEncode i rest hwf
  exact (step_of_ready hready).trans (stepRunning_of_decode hholds.pc_lt hd)

/-- Settles O14: the step of an unknown opcode word, by the policy. -/
theorem unknownOpcodeFollowsPolicy : Obligations.UnknownOpcodeFollowsPolicy := by
  intro s hready hpc hw
  rw [step_of_ready hready, stepRunning_of_unknown hpc hw]
  exact ⟨unknownOpcode_skip _, unknownOpcode_fault _⟩

/-- Settles O15: the opcode word's form counts the instruction's operands, so the decoder lacks
words. -/
theorem operandFetchPastEndFaults : Obligations.OperandFetchPastEndFaults := by
  intro s i hready hpc hhead hend
  obtain ⟨f, hf, hcount⟩ := opcodeForm_of_encode_head hhead
  exact (step_of_ready hready).trans (stepRunning_of_missing hpc hf (hcount ▸ hend))

/-! The other run states. -/

theorem step_of_halted (h : s.run = .halted) : step s = .next s := by
  cases hr : s.resetLine with
  | true => exact step_resetHeld hr
  | false => rw [step_of_run hr, h]

theorem step_of_faulted {f : FaultRecord} (h : s.run = .faulted f) : step s = .next s := by
  cases hr : s.resetLine with
  | true => exact step_resetHeld hr
  | false => rw [step_of_run hr, h]

theorem step_of_waiting {r : RegIx} (hr : s.resetLine = false) (h : s.run = .waitInput r) :
    step s = stepWaiting r s := by
  rw [step_of_run hr, h]

/-- A waiting core inside memory takes the host's answer (48_io.md R129). -/
theorem stepWaiting_of_pc_lt (r : RegIx) (h : s.pc.toNat < 32768) :
    stepWaiting r s = completeInput r s := if_pos h

/-- Settles O16: the step of a terminal core and of held reset. -/
theorem noChangeWhenTerminalOrHeld : Obligations.NoChangeWhenTerminalOrHeld :=
  fun _ => ⟨step_of_halted, fun _ => step_of_faulted, step_resetHeld⟩

/-- Settles O17: the waiting core completes `in`, by the queue of answers. -/
theorem answerCompletesInput : Obligations.AnswerCompletesInput := by
  intro s r hreset hrun hpc
  rw [step_of_waiting hreset hrun, stepWaiting_of_pc_lt r hpc]
  refine ⟨fun v rest h => ?_, fun rest h => ?_, fun h => ?_⟩
  · rw [completeInput, h]
    rfl
  · rw [completeInput, h]
    rfl
  · rw [completeInput, h]

/-! All the ways a step can go on. -/

/-- The arcs of the step. -/
inductive Arc (s : State) : State → Prop where
  /-- Nothing changes: reset is held, the core is terminal, or it waits with no answer. -/
  | idle (h : ¬ s.ready) : Arc s s
  /-- The pc is at the end of memory (40_cycle.md R91). -/
  | endOfMemory (hready : s.ready) (hpc : s.pc = 32768) : Arc s (s.setRun .halted)
  /-- The decoded instruction is executed (40_cycle.md R95 to R97). -/
  | exec {i : Instr} {rest : List Word16} {t : State} (hready : s.ready)
      (hd : decode (fetchWords s) = .ok (i, rest)) (hexec : exec i s = .next t) : Arc s t
  /-- An unknown opcode word is reported and skipped (40_cycle.md R92). -/
  | report (hready : s.ready) (hpc : s.pc.toNat < 32768)
      (hd : ∀ r, decode (fetchWords s) ≠ .ok r) (w : Word16) :
      Arc s ((s.emit (.reportUnknown s.pc w)).advance 1)
  /-- The fetch faults (40_cycle.md R92, R93). -/
  | fetchFault (hready : s.ready) (hpc : s.pc.toNat < 32768)
      (hd : ∀ r, decode (fetchWords s) ≠ .ok r) (cause : FaultCause) :
      Arc s (s.faultedBy cause)
  /-- The host answers `in` with a Word (48_io.md R129). -/
  | answer {r : RegIx} {v : Word} {rest : List HostAnswer} (hrun : s.run = .waitInput r)
      (ha : s.answers = .value v :: rest) :
      Arc s (((((s.setAnswers rest).emit (.answered (.value v))).writeReg r v).advance 2).setRun
        .running)
  /-- The host answers `in` with end of input (48_io.md R129). -/
  | endOfInput {r : RegIx} {rest : List HostAnswer} (hrun : s.run = .waitInput r)
      (hpc : s.pc.toNat < 32768) (ha : s.answers = .eof :: rest) :
      Arc s (((s.setAnswers rest).emit (.answered .eof)).faultedBy .inputExhausted)

/-- A core in another run state than Running is not ready. -/
theorem not_ready_of_run {r : RunState} (hrun : s.run = r) (hr : r ≠ .running) : ¬ s.ready :=
  fun ⟨_, h⟩ => hr (hrun.symm.trans h)

/-- The step of a running core, by what the decoder answers. -/
theorem stepRunning_arc (hready : s.ready) (h : stepRunning s = .next t) : Arc s t := by
  unfold stepRunning at h
  by_cases hpc : s.pc = 32768
  · rw [if_pos hpc] at h
    cases h
    exact .endOfMemory hready hpc
  · rw [if_neg hpc] at h
    cases hd : decode (fetchWords s) with
    | ok r =>
      rw [hd] at h
      exact .exec hready hd h
    | error e =>
      have hlt : e ≠ .noWord → s.pc.toNat < 32768 := fun he => by
        by_contra hge
        rw [decode_fetchWords_outside (Nat.not_lt.1 hge)] at hd
        cases hd
        exact he rfl
      have hno : ∀ r, decode (fetchWords s) ≠ .ok r := by simp [hd]
      rw [hd] at h
      cases e with
      | noWord => cases h
      | unknownOpcode w =>
        rcases unknownOpcode_cases w s with hw | hw <;> cases h.symm.trans hw
        · exact .report hready (hlt nofun) hno w
        · exact .fetchFault hready (hlt nofun) hno _
      | missingOperand w =>
        cases h
        exact .fetchFault hready (hlt nofun) hno _

/-- The step of a waiting core, by the answers. -/
theorem stepWaiting_arc {r : RegIx} (hrun : s.run = .waitInput r)
    (h : stepWaiting r s = .next t) : Arc s t := by
  by_cases hpc : s.pc.toNat < 32768
  · rw [stepWaiting_of_pc_lt r hpc] at h
    rcases completeInput_cases r s with ⟨-, hc⟩ | ⟨v, rest, ha, hc⟩ | ⟨rest, ha, hc⟩ <;>
      cases h.symm.trans hc
    · exact .idle (not_ready_of_run hrun nofun)
    · exact .answer hrun ha
    · exact .endOfInput hrun hpc ha
  · rw [stepWaiting, if_neg hpc] at h
    cases h

/-- Whatever a step answers lies on one of the arcs. -/
theorem step_arc (h : step s = .next t) : Arc s t := by
  cases hr : s.resetLine with
  | true =>
    cases h.symm.trans (step_resetHeld hr)
    exact .idle fun ⟨hreset, _⟩ => by rw [hr] at hreset; cases hreset
  | false =>
    cases hrun : s.run with
    | running => exact stepRunning_arc ⟨hr, hrun⟩ (step_of_ready ⟨hr, hrun⟩ ▸ h)
    | waitInput r => exact stepWaiting_arc hrun (step_of_waiting hr hrun ▸ h)
    | halted =>
      cases h.symm.trans (step_of_halted hrun)
      exact .idle (not_ready_of_run hrun nofun)
    | faulted f =>
      cases h.symm.trans (step_of_faulted hrun)
      exact .idle (not_ready_of_run hrun nofun)

/-- Settles O57: an executed instruction by the rule about all instructions, every other arc by its
own state. -/
theorem stepKeepsInputsAndAddsEvents : Obligations.StepKeepsInputsAndAddsEvents := by
  intro s t hstep
  cases step_arc hstep with
  | exec hready hd hexec =>
    obtain ⟨⟨hcfg, hreset, hanswers⟩, hevents⟩ := onlyIoMakesEvents _ s t hexec
    refine ⟨hcfg, hreset, .inl hanswers, ?_⟩
    rcases hevents with h | ⟨a, -, h⟩ | ⟨a, -, h⟩
    · exact ⟨[], by simpa using h, by simp⟩
    · exact ⟨_, h, by simp⟩
    · exact ⟨_, h, by simp⟩
  | idle h => exact ⟨rfl, rfl, .inl rfl, [], by simp, by simp⟩
  | endOfMemory hready hpc => exact ⟨rfl, rfl, .inl rfl, [], by simp, by simp⟩
  | report hready hpc hd w => exact ⟨rfl, rfl, .inl rfl, _, rfl, by simp⟩
  | fetchFault hready hpc hd cause => exact ⟨rfl, rfl, .inl rfl, [], by simp, by simp⟩
  | answer hrun ha => exact ⟨rfl, rfl, .inr ⟨_, ha⟩, _, rfl, by simp⟩
  | endOfInput hrun hpc ha => exact ⟨rfl, rfl, .inr ⟨_, ha⟩, _, rfl, by simp⟩

/-- Memory stays in a step, or one cell gets a Word (46_memory_ops.md R124). -/
theorem step_mem (h : step s = .next t) :
    t.mem = s.mem ∨ ∃ (j : Nat) (v : Word), t.mem = writeCell s.mem j (v.setWidth 16) := by
  cases step_arc h with
  | exec hready hd hexec =>
    rcases exec_mem hexec with hmem | ⟨a, b, v, -, hmem⟩
    · exact .inl hmem
    · exact .inr ⟨_, v, hmem⟩
  | _ => exact .inl rfl

/-- Settles O54: the one cell that a step may write gets a Word, which is below 32768. -/
theorem stepKeepsCellsLoaded : Obligations.StepKeepsCellsLoaded := by
  intro s t hcells hstep j hj
  rcases step_mem hstep with hmem | ⟨k, v, hmem⟩
  · rw [State.readMem_congr hmem]
    exact hcells j hj
  · rw [State.readMem, hmem, readCell_writeCell]
    split
    · rw [word_setWidth_toNat]
      have hv := v.isLt
      omega
    · exact hcells j hj

end Sys2Proof.Machine
end

section
/-! The invariant (10_state.md §4, §5; 60_exceptions.md §3): every change of an instruction and every
arc of the step keeps it, and under it the step always goes on. -/

namespace Sys2Proof.Machine

variable {s t : State}

/-- The stack fits when no bounded capacity is exceeded (10_state.md R38). -/
theorem State.stackFits_iff (s : State) :
    s.stackFits ↔ ∀ n, s.cfg.stackCapacity = .bounded n → s.stack.length ≤ n := by
  unfold State.stackFits
  cases s.cfg.stackCapacity <;> simp

/-- A stack that fits and is not full has room for one more entry (42_data_stack.md R109). -/
theorem State.stackFits_push (hfits : s.stackFits) (hfull : s.stackFull = false) (v : Word16) :
    (s.push v).stackFits := by
  rw [State.stackFits_iff] at hfits ⊢
  intro n hn
  have hle : s.stack.length ≤ n := hfits n hn
  have hne : n ≠ s.stack.length := by
    rintro rfl
    rw [s.stackFull_eq_true_iff.2 hn] at hfull
    cases hfull
  simp only [State.push_stack, List.length_cons]
  omega

/-- Without its top a stack that fits still fits. -/
theorem State.stackFits_setStack {v : Word16} {rest : List Word16} (hfits : s.stackFits)
    (hs : s.stack = v :: rest) : (s.setStack rest).stackFits := by
  rw [State.stackFits_iff] at hfits ⊢
  intro n hn
  have hle := hfits n hn
  rw [hs, List.length_cons] at hle
  exact Nat.le_of_succ_le hle

/-- The pc passes words that lie in memory without wrapping (10_state.md R30, R32). -/
theorem advance_pc_le {pc : Word16} {n : Nat} (h : pc.toNat + n ≤ 32768) :
    (pc + BitVec.ofNat 16 n).toNat ≤ 32768 := by
  rw [BitVec.toNat_add, BitVec.toNat_ofNat]
  omega

/-- A Word is below the sentinel pc, as a jump's target and as a stack entry. -/
theorem word_setWidth_le (v : Word) : (v.setWidth 16).toNat ≤ 32768 := by
  rw [word_setWidth_toNat]
  exact v.isLt.le

/-- The run state Running asks nothing of the other fields. -/
theorem RunState.agrees_of_running {r : RunState} (hr : r = .running) (t : State) :
    r.agrees t := by
  rw [hr]
  trivial

/-- An `in` that waits stands at the pc with the word of its register (48_io.md R128). -/
theorem RunState.agrees_waitInput {r : RegIx}
    (h : s.holdsAtPc (encode (.input (.register r)))) : (RunState.waitInput r).agrees s := by
  obtain ⟨hfit, hcells⟩ := h
  have hop : s.readMem s.pc.toNat = 20 := hcells 0 Nat.two_pos
  have hreg : s.readMem (s.pc.toNat + 1) = encodeOperand (.register r) := hcells 1 Nat.one_lt_two
  exact ⟨hfit, hop, by rw [hreg, encodeOperand_register_toNat]⟩

/-- Every change of an instruction whose words stand at the pc keeps the invariant. -/
theorem Change.inv {i : Instr} (h : Change s i t) (hinv : s.Inv) (hrun : s.run = .running)
    (hholds : s.holdsAtPc (encode i)) : t.Inv := by
  obtain ⟨hmem, hpc, hstack, hfits, -⟩ := hinv
  have hlt : s.pc.toNat < 32768 := hholds.pc_lt
  have hnext : (s.pc + BitVec.ofNat 16 (encode i).length).toNat ≤ 32768 :=
    advance_pc_le hholds.1
  have hruns : ∀ t : State, s.run.agrees t := RunState.agrees_of_running hrun
  cases h with
  | fault cause => exact ⟨hmem, hpc, hstack, hfits, hlt, rfl, rfl⟩
  | write v hd hi => exact ⟨hmem, hnext, hstack, hfits, hruns _⟩
  | pass => exact ⟨hmem, hnext, hstack, hfits, hruns _⟩
  | jump target hi => exact ⟨hmem, word_setWidth_le target, hstack, hfits, hruns _⟩
  | push a v hfull =>
    exact ⟨hmem, hnext, List.forall_mem_cons.2 ⟨word_setWidth_le v, hstack⟩,
      State.stackFits_push hfits hfull _, hruns _⟩
  | pop d hs =>
    obtain ⟨-, hrest⟩ := List.forall_mem_cons.1 (hs ▸ hstack)
    have hfits' := State.stackFits_setStack hfits hs
    exact ⟨hmem, hnext, hrest, hfits', hruns _⟩
  | wmem a b v =>
    have haddr : wmemAddress a s < 32768 := (resolve a s).isLt
    exact ⟨Memory.wf_writeCell hmem haddr _, hnext, hstack, hfits, hruns _⟩
  | call a target hfull =>
    exact ⟨hmem, word_setWidth_le target, List.forall_mem_cons.2 ⟨hnext, hstack⟩,
      State.stackFits_push hfits hfull _, hruns _⟩
  | ret hs =>
    obtain ⟨htop, hrest⟩ := List.forall_mem_cons.1 (hs ▸ hstack)
    have hfits' := State.stackFits_setStack hfits hs
    exact ⟨hmem, htop, hrest, hfits', hruns _⟩
  | halt hi => exact ⟨hmem, Nat.le_refl 32768, hstack, hfits, rfl⟩
  | out a => exact ⟨hmem, hnext, hstack, hfits, hruns _⟩
  | input d => exact ⟨hmem, hpc, hstack, hfits, RunState.agrees_waitInput hholds⟩

/-- Every arc of the step keeps the invariant. -/
theorem Arc.inv (h : Arc s t) (hinv : s.Inv) : t.Inv := by
  obtain ⟨hmem, hpc, hstack, hfits, hagrees⟩ := id hinv
  cases h with
  | idle h => exact hinv
  | endOfMemory hready hend => exact ⟨hmem, hpc, hstack, hfits, hend⟩
  | exec hready hd hexec => exact (exec_change hexec).inv hinv hready.2 (holdsAtPc_of_decode hd)
  | report hready hlt hd w =>
    exact ⟨hmem, advance_pc_le (n := 1) hlt, hstack, hfits,
      RunState.agrees_of_running hready.2 _⟩
  | fetchFault hready hlt hd cause => exact ⟨hmem, hpc, hstack, hfits, hlt, rfl, rfl⟩
  | answer hrun ha =>
    rw [hrun] at hagrees
    obtain ⟨hwords, -, -⟩ := hagrees
    exact ⟨hmem, advance_pc_le (n := 2) hwords, hstack, hfits, trivial⟩
  | endOfInput hrun hlt ha => exact ⟨hmem, hpc, hstack, hfits, hlt, rfl, rfl⟩

/-- Settles O53: the step lies on an arc, and every arc keeps the invariant. -/
theorem stepKeepsInvariant : Obligations.StepKeepsInvariant :=
  fun _ _ hinv hstep => (step_arc hstep).inv hinv

/-- Settles O52: clause by clause; memory is empty, so every cell reads 0. -/
theorem resetMeetsInvariant : Obligations.ResetMeetsInvariant := by
  refine ⟨⟨Memory.wf_reset, Nat.zero_le _, nofun, trivial, trivial⟩, fun i _ => ?_⟩
  rw [State.readMem_reset]
  exact Nat.zero_le _

/-! Under the invariant the step goes on. -/

/-- A running core with the pc at most 32768 goes on in every case of the fetch. -/
theorem stepRunning_goes_on (h : s.pc.toNat ≤ 32768) : ∃ t, stepRunning s = .next t := by
  rcases stepRunning_cases h with ⟨-, hs⟩ | ⟨-, ⟨i, rest, -, hs⟩ | ⟨-, hs⟩ | ⟨f, -, -, hs⟩⟩
  · exact ⟨_, hs⟩
  · obtain ⟨t, ht, -⟩ := exec_effect i s
    exact ⟨t, hs.trans ht⟩
  · rcases unknownOpcode_cases (s.readMem s.pc.toNat) s with hw | hw
    · exact ⟨_, hs.trans hw⟩
    · exact ⟨_, hs.trans hw⟩
  · exact ⟨_, hs⟩

/-- A waiting core with the pc in memory goes on whatever the queue of answers holds. -/
theorem completeInput_goes_on (r : RegIx) (s : State) : ∃ t, completeInput r s = .next t := by
  rcases completeInput_cases r s with ⟨-, h⟩ | ⟨v, rest, -, h⟩ | ⟨rest, -, h⟩
  · exact ⟨_, h⟩
  · exact ⟨_, h⟩
  · exact ⟨_, h⟩

/-- Settles O55: by the run state; the invariant bounds a running pc, and puts a waiting one at its
`in`. -/
theorem stepNeverStops : Obligations.StepNeverStops := by
  intro s hinv
  cases hr : s.resetLine with
  | true => exact ⟨s, step_resetHeld hr⟩
  | false =>
    cases hrun : s.run with
    | running =>
      rw [step_of_ready ⟨hr, hrun⟩]
      exact stepRunning_goes_on hinv.pc_le
    | waitInput r =>
      obtain ⟨hwords, -, -⟩ : (RunState.waitInput r).agrees s := hrun ▸ hinv.run_agrees
      rw [step_of_waiting hr hrun, stepWaiting_of_pc_lt r (by omega)]
      exact completeInput_goes_on r s
    | halted => exact ⟨s, step_of_halted hrun⟩
    | faulted f => exact ⟨s, step_of_faulted hrun⟩

/-! The arcs of the run state (10_state.md §6). -/

/-- A running core's instruction halts it exactly when it is `halt`, or `ret` on the empty stack. -/
theorem exec_halted_iff {i : Instr} (hrun : s.run = .running) (h : exec i s = .next t) :
    t.run = .halted ↔ i = .halt ∨ i = .ret ∧ s.stack = [] := by
  constructor
  · intro ht
    cases exec_change h with
    | halt hi => exact hi
    | fault cause => cases ht
    | input d => cases ht
    | _ => exact absurd (hrun.symm.trans ht) nofun
  · rintro (rfl | ⟨rfl, hs⟩)
    · cases h
      rfl
    · cases h.symm.trans (exec_ret_empty hs)
      rfl

/-- A running core's instruction waits for input to register r exactly when it is `in` of r. -/
theorem exec_waitInput_iff {i : Instr} (hrun : s.run = .running) (h : exec i s = .next t)
    (r : RegIx) : t.run = .waitInput r ↔ i = .input (.register r) := by
  constructor
  · intro ht
    cases exec_change h with
    | input d =>
      cases ht
      rfl
    | fault cause => cases ht
    | halt hi => cases ht
    | _ => exact absurd (hrun.symm.trans ht) nofun
  · rintro rfl
    cases h.symm.trans (exec_input r s)
    rfl

/-- The step of a running core, as far as its run state goes: the end of memory, an instruction, or a
fetch that neither halts nor waits. -/
theorem step_ready_cases (hready : s.ready) (h : step s = .next t) :
    (s.pc = 32768 ∧ t.run = .halted) ∨
      (∃ i rest, decode (fetchWords s) = .ok (i, rest) ∧ exec i s = .next t) ∨
      (s.pc.toNat < 32768 ∧ (∀ r, decode (fetchWords s) ≠ .ok r) ∧
        (t.run = .running ∨ ∃ f, t.run = .faulted f)) := by
  cases step_arc h with
  | idle hidle => exact absurd hready hidle
  | endOfMemory _ hpc => exact .inl ⟨hpc, rfl⟩
  | exec _ hd hexec => exact .inr (.inl ⟨_, _, hd, hexec⟩)
  | report _ hpc hd w => exact .inr (.inr ⟨hpc, hd, .inl hready.2⟩)
  | fetchFault _ hpc hd cause => exact .inr (.inr ⟨hpc, hd, .inr ⟨_, rfl⟩⟩)
  | answer hrun ha => exact absurd hready (not_ready_of_run hrun nofun)
  | endOfInput hrun hpc ha => exact absurd hready (not_ready_of_run hrun nofun)

/-- When the step of a running core halts (10_state.md R40). -/
theorem step_halted_iff (hready : s.ready) (h : step s = .next t) :
    t.run = .halted ↔ s.pc = 32768 ∨ (∃ rest, decode (fetchWords s) = .ok (.halt, rest)) ∨
      ∃ rest, decode (fetchWords s) = .ok (.ret, rest) ∧ s.stack = [] := by
  rcases step_ready_cases hready h with ⟨hpc, ht⟩ | ⟨i, rest, hd, hexec⟩ | ⟨hpc, hd, ht⟩
  · exact iff_of_true ht (.inl hpc)
  · have hne : s.pc ≠ 32768 := pc_ne_end_of_lt (holdsAtPc_of_decode hd).pc_lt
    rw [exec_halted_iff hready.2 hexec, or_iff_right hne]
    simp [hd]
  · have hne : t.run ≠ .halted := by rcases ht with ht | ⟨f, ht⟩ <;> simp [ht]
    rw [or_iff_right (pc_ne_end_of_lt hpc)]
    simp [hne, hd]

/-- When the step of a running core enters WaitInput (10_state.md R40). -/
theorem step_waitInput_iff (hready : s.ready) (h : step s = .next t) (r : RegIx) :
    t.run = .waitInput r ↔
      ∃ rest, decode (fetchWords s) = .ok (.input (.register r), rest) := by
  rcases step_ready_cases hready h with ⟨hpc, ht⟩ | ⟨i, rest, hd, hexec⟩ | ⟨-, hd, ht⟩
  · have hd : decode (fetchWords s) = .error .noWord :=
      decode_fetchWords_outside (by rw [hpc]; decide)
    simp [ht, hd]
  · rw [exec_waitInput_iff hready.2 hexec]
    simp [hd]
  · have hne : t.run ≠ .waitInput r := by rcases ht with ht | ⟨f, ht⟩ <;> simp [ht]
    simp [hne, hd]

/-- What a waiting core may become (10_state.md R40). -/
theorem step_of_waitInput_cases {r : RegIx} (hrun : s.run = .waitInput r)
    (h : step s = .next t) :
    t = s ∨ t.run = .running ∨ ∃ f, t.run = .faulted f ∧ f.cause = .inputExhausted := by
  have hnot : ¬ s.ready := not_ready_of_run hrun nofun
  cases step_arc h with
  | idle _ => exact .inl rfl
  | endOfMemory hready hpc => exact absurd hready hnot
  | exec hready hd hexec => exact absurd hready hnot
  | report hready hpc hd w => exact absurd hready hnot
  | fetchFault hready hpc hd cause => exact absurd hready hnot
  | answer _ ha => exact .inr (.inl rfl)
  | endOfInput _ hpc ha => exact .inr (.inr ⟨_, rfl, rfl⟩)

/-- Settles O56: the running core by the decoded instruction, the waiting one by the answer, the
terminal ones unchanged. -/
theorem runStateMovesByItsArcs : Obligations.RunStateMovesByItsArcs := by
  intro s t _ hreset hstep
  refine ⟨fun hrun => ?_, fun r hrun => step_of_waitInput_cases hrun hstep, fun hrun => ?_,
    fun f hrun => ?_⟩
  · exact ⟨step_halted_iff ⟨hreset, hrun⟩ hstep, step_waitInput_iff ⟨hreset, hrun⟩ hstep⟩
  · cases hstep.symm.trans (step_of_halted hrun)
    exact hrun
  · cases hstep.symm.trans (step_of_faulted hrun)
    exact hrun

end Sys2Proof.Machine
end
